-- ==== Sys2Proof/Word.lean ====
section
/-! DEFINITION. The Word and the fixed-size files of Words (spec 00 R5, R6; 20 R60). -/

namespace Sys2Proof

/-- "an unsigned 32-bit integer" (R6); all arithmetic on it is modulo 2^32 (R8). -/
abbrev Word := BitVec 32

/-- A byte of a message or of a port (20 R64 to R66). -/
abbrev Byte := BitVec 8

/-- Eight Words: the hash state `H[0..7]` (R21), the working registers `r[0..7] = a..h` (R22). -/
abbrev Words8 := Vector Word 8

/-- Sixteen Words: a Block (R24). -/
abbrev Block := Vector Word 16

/-- Sixty-four Words: a Schedule (R23), the round constants (R25). -/
abbrev Schedule := Vector Word 64

/-- The index `t` of the sequencer, a schedule index or a round number: 6 bits, 0..63 (R27). -/
abbrev Index := Fin 64

end Sys2Proof
end

