-- ==== Sys2Proof/Syntax.lean ====
section
/-! DEFINITION. The instruction set: one constructor per row of opcode_table.json (spec 30 R90, R93,
R94, R98: "these nine are the whole instruction set"). -/

namespace Sys2Proof

/-- The four commands carry what the host presents with them (R92); the five micro-operations carry the
one operand field of a `SEQ` word, `t` (R94). -/
inductive Instr where
  /-- `NOP`, 44 R161. -/
  | nop
  /-- `INIT`, 44 R162. -/
  | init
  /-- `BLOCK`, 44 R163, with the `block[511:0]` operand. -/
  | block (b : BitVec 512)
  /-- `BLOCK_LAST`, 44 R164, with the `block[511:0]` operand. -/
  | blockLast (b : BitVec 512)
  /-- `U_WLOAD`, 41 R130; `t` in 0..15. -/
  | uWload (t : Index)
  /-- `U_WEXP`, 41 R131; `t` in 16..63. -/
  | uWexp (t : Index)
  /-- `U_WINIT`, 42 R140; `t` is 0. -/
  | uWinit (t : Index)
  /-- `U_ROUND`, 42 R142; `t` in 0..63. -/
  | uRound (t : Index)
  /-- `U_FEED`, 43 R152; `t` is 0. -/
  | uFeed (t : Index)
deriving DecidableEq, Repr

end Sys2Proof
end

