-- ==== Sys2Proof/WellFormed.lean ====
section
/-! DEFINITION. Which terms of `Instr` are instructions: the legal range of `t` in each phase
(spec 30 R94, 10 R27). No value of the 512-bit operand is illegal (R95). -/

namespace Sys2Proof

/-- `LOAD`: "`t` in 0..15" (R94). -/
def legalLoad (t : Index) : Bool := decide (t.val ≤ 15)

/-- `EXPAND`: "`t` in 16..63" (R94). -/
def legalExpand (t : Index) : Bool := decide (16 ≤ t.val)

/-- `WINIT` and `FEED`: `t` is "always zero" (R94). -/
def legalZero (t : Index) : Bool := decide (t.val = 0)

/-- The instruction is one of the spec's: its `t` lies in the legal range of its phase. -/
def Instr.wf : Instr → Bool
  | .nop => true
  | .init => true
  | .block _ => true
  | .blockLast _ => true
  | .uWload t => legalLoad t
  | .uWexp t => legalExpand t
  | .uWinit t => legalZero t
  | .uRound _ => true
  | .uFeed t => legalZero t

end Sys2Proof
end

