-- ==== Sys2Proof/Decode.lean ====
section
/-! DEFINITION. Decoding of command words and sequencer words, and the encoder (spec 30 R90 to R101).
Nothing is fetched from a memory (20 R77): a `CMD` word comes from the ports, a `SEQ` word is the
sequencer's own state. The two formats share no selector (R90), so a word carries its format. -/

namespace Sys2Proof

/-- The two formats (R90): `CMD`, `cmd[1:0]` presented together with `block[511:0]`; `SEQ`,
`seq[8:0]` holding `phase[2:0]` above `t[5:0]`. -/
inductive CodeWord where
  | cmd (code : BitVec 2) (block : BitVec 512)
  | seq (word : BitVec 9)
deriving DecidableEq, Repr

/-- Why a word selects no instruction. -/
inductive DecodeReject where
  /-- Phase `000`, `IDLE`: "none; the core waits for a transfer" (R94). -/
  | idlePhase
  /-- Phases `110` and `111`: states that do not exist (R99 (b)). -/
  | noSuchPhase
deriving DecidableEq, Repr

/-- `cmd[1]`, "the command carries a block" (R92). -/
def cmdBlk (code : BitVec 2) : Bool := code.getLsbD 1

/-- `cmd[0]`: the last block of its message, or initialise (R92). -/
def cmdSel (code : BitVec 2) : Bool := code.getLsbD 0

/-- `phase[2:0] = seq[8:6]` (R90). -/
def seqPhase (word : BitVec 9) : BitVec 3 := word.extractLsb' 6 3

/-- `t[5:0] = seq[5:0]` (R90). -/
def seqIndex (word : BitVec 9) : Index := (word.extractLsb' 0 6).toFin

/-- The `SEQ` word of a phase code and an index (R90). -/
def seqWord (phase : BitVec 3) (t : Index) : BitVec 9 := phase ++ BitVec.ofNat 6 t.val

/-- "All four values of `cmd[1:0]` are assigned; none is reserved" (R93); `block` "is an operand only
for the last two" (R98). -/
def decodeCmd (code : BitVec 2) (b : BitVec 512) : Instr :=
  match cmdBlk code, cmdSel code with
  | false, false => .nop
  | false, true => .init
  | true, false => .block b
  | true, true => .blockLast b

/-- "For a `SEQ` word look at `phase[2:0]` ...; `t` is the operand" (R98). Whether `t` lies in the
phase's legal range is `Instr.wf`. -/
def decodeSeq (word : BitVec 9) : Except DecodeReject Instr :=
  match (seqPhase word).toNat with
  | 0 => .error .idlePhase
  | 1 => .ok (.uWload (seqIndex word))
  | 2 => .ok (.uWexp (seqIndex word))
  | 3 => .ok (.uWinit (seqIndex word))
  | 4 => .ok (.uRound (seqIndex word))
  | 5 => .ok (.uFeed (seqIndex word))
  | _ => .error .noSuchPhase

/-- Decoding, total on every word of either format (R98). -/
def decode : CodeWord → Except DecodeReject Instr
  | .cmd code b => .ok (decodeCmd code b)
  | .seq word => decodeSeq word

/-! ## Words as opcode_table.json numbers them -/

/-- The word whose bits are `w`, read as a row of `nbits` bits: "A `CMD` word is always 2 + 512 bits
presented together; a `SEQ` word is always 9 bits" (R101). The table gives a `CMD` row 2 bits (one whole
byte) and a `SEQ` row 9 (two whole bytes); the operand `block` of a `CMD` word, to which the table
gives no bits, is counted on from bit 2. The two formats overlap as numbers (R90), so the length says
which is meant. DESIGN CHOICE, log 10. -/
def tableWord (nbits w : Nat) : Option CodeWord :=
  if 8 < nbits ∧ nbits ≤ 16 then
    if w < 512 then some (.seq (BitVec.ofNat 9 w)) else none
  else if w >>> 512 < 4 then
    some (.cmd (BitVec.ofNat 2 w) (BitVec.ofNat 512 (w >>> 2)))
  else none

/-- The instruction the decoder reads from a row's word. -/
def decodeTableWord (nbits w : Nat) : Option Instr :=
  match tableWord nbits w with
  | none => none
  | some c =>
    match decode c with
    | .ok i => some i
    | .error _ => none

/-! ## Encoding -/

/-- The word of an instruction (R93, R94). For `NOP` and `INIT` the `block` port is don't-care (R102) and
is written as zero (log 15). -/
def encode : Instr → CodeWord
  | .nop => .cmd 0b00#2 0
  | .init => .cmd 0b01#2 0
  | .block b => .cmd 0b10#2 b
  | .blockLast b => .cmd 0b11#2 b
  | .uWload t => .seq (seqWord 0b001#3 t)
  | .uWexp t => .seq (seqWord 0b010#3 t)
  | .uWinit t => .seq (seqWord 0b011#3 t)
  | .uRound t => .seq (seqWord 0b100#3 t)
  | .uFeed t => .seq (seqWord 0b101#3 t)

/-- How many whole bytes' bits the word has as `tableWord` counts them: 520 for a `CMD` word (2 + 512
bits), 16 for a `SEQ` word (9 bits). -/
def CodeWord.tableBits : CodeWord → Nat
  | .cmd _ _ => 520
  | .seq _ => 16

/-- The bits of the word, numbered as `tableWord` reads them. -/
def CodeWord.tableNat : CodeWord → Nat
  | .cmd code b => code.toNat + b.toNat * 4
  | .seq word => word.toNat

end Sys2Proof
end

