-- ==== Sys2Proof/Config.lean ====
section
/-! DEFINITION. What an implementation fixes (spec 00 R5, 92 open parameters) and the free values
(10 R34, 93 U1). The parameters the spec fixes stand in the types of Word.lean and State.lean. -/

namespace Sys2Proof.Config

/-- `UOPS_PER_BLOCK` (R5, D8): 16 `U_WLOAD`, 48 `U_WEXP`, one `U_WINIT`, 64 `U_ROUND`, one `U_FEED`. -/
def uopsPerBlock : Nat := 130

/-- `RESET_KIND` (R5, 70 R230, D7): the polarity and the synchrony of the `rst` input. -/
structure ResetKind where
  /-- `rst = 1` asks for a reset; otherwise `rst = 0` does. -/
  activeHigh : Bool
  /-- The reset acts at once, not at a clock edge: below the transaction level, so no rule reads it. -/
  asynchronous : Bool
deriving DecidableEq, Repr, Inhabited

/-- The open parameter `RESET_KIND` of the implementation (U8): nothing fixes it. -/
opaque resetKind : ResetKind

/-! The data state after a reset in effect (R34: "the hardware may hold any bit pattern, possibly a
different one after each reset, possibly the leftovers of the computation that ran before the reset").
DESIGN CHOICE, log 2: free values; the number of the draw and what the file held are the arguments, so
that each reset may leave other values and may leave the leftovers. -/

/-- `H[0..7]` after the reset number `draw`, the file having held `held`. -/
opaque hashAfterReset (draw : Nat) (held : Words8) : Words8

/-- `r[0..7]` after the reset number `draw`. -/
opaque workAfterReset (draw : Nat) (held : Words8) : Words8

/-- `W[0..63]` after the reset number `draw`. -/
opaque scheduleAfterReset (draw : Nat) (held : Schedule) : Schedule

/-- `BLK[0..15]` after the reset number `draw`. -/
opaque blockAfterReset (draw : Nat) (held : Block) : Block

end Sys2Proof.Config
end

