-- ==== Sys2Proof/Machine/State.lean ====
section
/-! DEFINITION. The state of one `sha256_core` instance, plain data (spec 10_state.md), the reasons a
step can stop, and the state after reset. -/

namespace Sys2Proof.Machine

/-- The session state `hs` (R26). -/
inductive Session where
  /-- "no computation has been opened since reset". -/
  | empty
  /-- "a computation is open". -/
  | active
  /-- "the last block of a computation has been folded in; `H` is the digest and is frozen". -/
  | done
deriving DecidableEq, Repr

/-- The six phases of the sequencer (R27); an enumeration, the codes being names only (D9). -/
inductive Phase where
  | idle
  | load
  | expand
  | winit
  | round
  | feed
deriving DecidableEq, Repr

/-- The sequencer `seq = (phase, t)` (R27), in place of a program counter. -/
structure Seq where
  phase : Phase
  t : Index
deriving DecidableEq, Repr

/-- `err_code` (R29, 60 R201): "Value 3 is never produced", so it is no constructor (U6). -/
inductive ErrCode where
  /-- 0, "no error since the last `INIT` or reset". -/
  | none
  /-- 1, `E_NOINIT`. -/
  | noInit
  /-- 2, `E_TERMINAL`. -/
  | terminal
deriving DecidableEq, Repr

/-- The input ports at one step (R30). `rst` says that reset is in effect at this step: what level of the
pin that is, is `RESET_KIND` (`PortIn.ofPins`). -/
structure PortIn where
  rst : Bool
  cmdValid : Bool
  cmd : BitVec 2
  block : BitVec 512
deriving DecidableEq, Repr

/-- The host presents nothing: no reset, `cmd_valid = 0`. -/
def PortIn.quiet : PortIn := { rst := false, cmdValid := false, cmd := 0, block := 0 }

/-- The complete state (R20), and two fields of the model's own. -/
structure State where
  /-- The hash state (R21). -/
  H : Words8
  /-- The working registers `a..h` (R22). -/
  r : Words8
  /-- The message schedule (R23). -/
  W : Schedule
  /-- The latched block (R24). -/
  BLK : Block
  /-- The session state (R26). -/
  hs : Session
  /-- The sequencer (R27). -/
  seq : Seq
  /-- `last_q` (R28). -/
  lastQ : Bool
  /-- `err` (R29). -/
  err : Bool
  /-- `err_code` (R29). -/
  errCode : ErrCode
  /-- The model's own: the input ports at the coming steps, head first (R37; log 3). When the list is
  used up the host presents nothing. -/
  inputs : List PortIn
  /-- The model's own: how many resets in effect have drawn free data values (log 2). -/
  draws : Nat
deriving DecidableEq, Repr

/-- Why the machine is stuck. -/
inductive Fault where
  /-- Raised by the meaning of a micro-operation whose `t` lies outside the legal range of its phase, and
  by `step` should a sequencer word select no instruction: "states that do not exist" (30 R99 (b)),
  where no micro-operation is enabled (93 U6). Safe: no reachable state meets it. -/
  | noMicroOperation
deriving DecidableEq, Repr

/-- Why an instruction is given no meaning. -/
inductive Refusal where
  /-- Raised by `exec` for an instruction that has no meaning yet. Safe. No arm raises it now. -/
  | notModelled (mnemonic : String)
deriving DecidableEq, Repr

/-- The machine right after reset (R34, 70 R230). The control state is the spec's. The data state is
given no value by the spec: zero is a DESIGN CHOICE, unsafe, log 1. -/
def State.reset : State where
  H := Vector.replicate 8 0
  r := Vector.replicate 8 0
  W := Vector.replicate 64 0
  BLK := Vector.replicate 16 0
  hs := .empty
  seq := { phase := .idle, t := 0 }
  lastQ := false
  err := false
  errCode := .none
  inputs := []
  draws := 0

end Sys2Proof.Machine
end

