-- ==== Sys2Proof/Machine/Operands.lean ====
section
/-! DEFINITION. Operand forms: how the ports carry a Block and a digest (spec 20 R65, R66; 30 R95), the
bytes of the ports (D24), the index operands (30 R97), the phase codes of a sequencer word (30 R94), and
the input pins (10 R30). -/

namespace Sys2Proof.Machine

/-! ## The block port -/

/-- `Block[i] = block[511 - 32*i : 480 - 32*i]` (R65, R95). -/
def blockWord (b : BitVec 512) (i : Fin 16) : Word := b.extractLsb' (480 - 32 * i.val) 32

/-- The sixteen Words cut from the port at a transfer (R95). -/
def blockWords (b : BitVec 512) : Block := Vector.ofFn (blockWord b)

/-- `p[k] = block[511 - 8*k : 504 - 8*k]` (R65). -/
def blockByte (b : BitVec 512) (k : Fin 64) : Byte := b.extractLsb' (504 - 8 * k.val) 8

/-- The port value that carries the bytes of a padded block in message order, "read as one 512-bit
big-endian number" (R65); of more than 64 bytes the last 64 count. -/
def blockPort (bytes : List Byte) : BitVec 512 :=
  bytes.foldl (fun acc x => (acc <<< 8) ||| x.setWidth 512) 0

/-! ## The digest port -/

/-- `digest[255 - 32*j : 224 - 32*j] = H[j]` (R32, R66): `H[0]` is the most significant Word. -/
def digestPort (h : Words8) : BitVec 256 :=
  h[0] ++ (h[1] ++ (h[2] ++ (h[3] ++ (h[4] ++ (h[5] ++ (h[6] ++ h[7]))))))

/-- `dg[k] = digest[255 - 8*k : 248 - 8*k]` (R66). -/
def digestByte (d : BitVec 256) (k : Fin 32) : Byte := d.extractLsb' (248 - 8 * k.val) 8

/-! ## Index operands -/

/-- `t - k` for the offsets 2, 7, 15, 16 of `U_WEXP` (R97): never below 0, since `t >= 16`. -/
def indexBack (t : Index) (k : Nat) : Index := ⟨t.val - k, by omega⟩

/-- The index of `BLK` that `U_WLOAD` reads: `t` itself, which is in 0..15 (R97, R130). -/
def blockIndex (t : Index) : Fin 16 := ⟨t.val % 16, by omega⟩

/-! ## The sequencer word -/

/-- The phase codes of R94; names only, no port shows them (D9). -/
def Phase.code : Phase → BitVec 3
  | .idle => 0b000#3
  | .load => 0b001#3
  | .expand => 0b010#3
  | .winit => 0b011#3
  | .round => 0b100#3
  | .feed => 0b101#3

/-- The phase a code names; `110` and `111` name none (R94, R99). -/
def Phase.ofCode (c : BitVec 3) : Option Phase :=
  match c.toNat with
  | 0 => some .idle
  | 1 => some .load
  | 2 => some .expand
  | 3 => some .winit
  | 4 => some .round
  | 5 => some .feed
  | _ => none

/-- `seq` written as a word (R90, R94). -/
def Seq.word (q : Seq) : BitVec 9 := seqWord q.phase.code q.t

/-! ## The input pins -/

/-- The input ports at a step, from the levels of the pins (R30) under a `RESET_KIND` (70 R230, U8):
reset is in effect when `rst` is at its active level. -/
def PortIn.ofPins (kind : Config.ResetKind) (rst cmdValid : Bool) (cmd : BitVec 2) (block : BitVec 512) :
    PortIn :=
  { rst := rst == kind.activeHigh, cmdValid := cmdValid, cmd := cmd, block := block }

/-- The input ports of this implementation, whose `RESET_KIND` is open. -/
def PortIn.ofThesePins (rst cmdValid : Bool) (cmd : BitVec 2) (block : BitVec 512) : PortIn :=
  PortIn.ofPins Config.resetKind rst cmdValid cmd block

end Sys2Proof.Machine
end

