-- ==== Sys2Proof/Machine/Flags.lean ====
section
/-! DEFINITION. The flags. There are no arithmetic flags: no operation records a carry, a zero or a sign
(spec 10 R31, 40 R122). What a host samples are the output ports of 10 R30, all functions of the state. -/

namespace Sys2Proof.Machine

/-- The numbers of `err_code` (60 R201, D25). -/
def ErrCode.code : ErrCode → BitVec 2
  | .none => 0
  | .noInit => 1
  | .terminal => 2

/-- `cmd_ready = 1` if and only if `phase = IDLE` (R31). -/
def State.cmdReady (s : State) : Bool := decide (s.seq.phase = .idle)

/-- `digest_valid = 1` if and only if `hs = DONE` (R31). -/
def State.digestValid (s : State) : Bool := decide (s.hs = .done)

/-- The digest port (R32): the hash state while `digest_valid = 1`; while it is 0 the port's value is
unspecified and "a model gives it no value" (R32, U2; log 4). -/
def State.digest (s : State) : Option (BitVec 256) :=
  if s.digestValid then some (digestPort s.H) else none

/-- The output ports of R30. -/
structure PortOut where
  cmdReady : Bool
  digestValid : Bool
  digest : Option (BitVec 256)
  err : Bool
  errCode : BitVec 2
deriving DecidableEq, Repr

/-- What a host that samples the output ports sees; sampling changes nothing (20 R70). -/
def State.outputs (s : State) : PortOut where
  cmdReady := s.cmdReady
  digestValid := s.digestValid
  digest := s.digest
  err := s.err
  errCode := s.errCode.code

end Sys2Proof.Machine
end

