-- ==== Sys2Proof/Machine/Units.lean ====
section
/-! DEFINITION. The arithmetic and logic function units (spec 40_arith_primitives.md): total functions
of Words, no flag, no exception (R122). -/

namespace Sys2Proof.Machine

/-- `add32` (R110): the sum modulo 2^32. -/
def add32 (x y : Word) : Word := x + y

/-- `rotr` (R111): circular right rotation. Only constant amounts between 2 and 25 are used. -/
def rotr (x : Word) (n : Nat) : Word := x.rotateRight n

/-- `shr` (R112): logical right shift. Only the amounts 3 and 10 are used. -/
def shr (x : Word) (n : Nat) : Word := x >>> n

/-- `xor` (R113). -/
def xor32 (x y : Word) : Word := x ^^^ y

/-- `and` (R114). -/
def and32 (x y : Word) : Word := x &&& y

/-- `not` (R115). -/
def not32 (x : Word) : Word := ~~~x

/-- `SIG0` (R116): rotations by 7 and 18, shift by 3. -/
def sig0 (x : Word) : Word := xor32 (xor32 (rotr x 7) (rotr x 18)) (shr x 3)

/-- `SIG1` (R117): rotations by 17 and 19, shift by 10. -/
def sig1 (x : Word) : Word := xor32 (xor32 (rotr x 17) (rotr x 19)) (shr x 10)

/-- `BSIG0` (R118): rotations by 2, 13 and 22. -/
def bsig0 (x : Word) : Word := xor32 (xor32 (rotr x 2) (rotr x 13)) (rotr x 22)

/-- `BSIG1` (R119): rotations by 6, 11 and 25. -/
def bsig1 (x : Word) : Word := xor32 (xor32 (rotr x 6) (rotr x 11)) (rotr x 25)

/-- `CH`, choose (R120). -/
def ch (x y z : Word) : Word := xor32 (and32 x y) (and32 (not32 x) z)

/-- `MAJ`, majority (R121). -/
def maj (x y z : Word) : Word := xor32 (xor32 (and32 x y) (and32 x z)) (and32 y z)

end Sys2Proof.Machine
end

