-- ==== Sys2Proof/Machine/Ops.lean ====
section
/-! DEFINITION. The named operations over the storage spaces (spec 00 R9; 20 R60), the sequencer (00 R11),
the one exception and the end of its effect (60 R204, R206), reset (70 R230) and the input ports (10 R30).
Each writes what its rule names and nothing else. -/

namespace Sys2Proof.Machine

/-! ## Storage spaces -/

/-- The five storage spaces (R60). -/
inductive Space where
  | K
  | W
  | BLK
  | H
  | r
deriving DecidableEq, Repr

/-- How many Words a space has; an index outside "cannot be formed" (R60). -/
def Space.entries : Space → Nat
  | .K => 64
  | .W => 64
  | .BLK => 16
  | .H => 8
  | .r => 8

/-- `K[t]`, the same Word "at every time and in every instance" (R62). -/
def readK (t : Index) : Word := roundConstants[t]

/-- `W[t]` (R9). -/
def State.readW (s : State) (t : Index) : Word := s.W[t]

/-- `BLK[i]` (R9). -/
def State.readBLK (s : State) (i : Fin 16) : Word := s.BLK[i]

/-- `H[j]` (R9). -/
def State.readH (s : State) (j : Fin 8) : Word := s.H[j]

/-- `r[j]` (R9). -/
def State.readR (s : State) (j : Fin 8) : Word := s.r[j]

/-- `MemRead(S, i)`: the whole Word at index `i` of space `S` (R9). -/
def State.memRead (s : State) : (sp : Space) → Fin sp.entries → Word
  | .K, i => readK i
  | .W, i => s.readW i
  | .BLK, i => s.readBLK i
  | .H, i => s.readH i
  | .r, i => s.readR i

/-- `W[t] <- v` (R9). -/
def State.writeW (s : State) (t : Index) (v : Word) : State := { s with W := s.W.set t v }

/-- All eight Words of `r` in one step (20 R69 (d)). -/
def State.writeWork (s : State) (v : Words8) : State := { s with r := v }

/-- All eight Words of `H` in one step (20 R69 (b), (c)). -/
def State.writeHash (s : State) (v : Words8) : State := { s with H := v }

/-- All sixteen Words of `BLK` from the port, and the last-block latch (44 R163, 20 R69 (a)). -/
def State.latchBlock (s : State) (b : BitVec 512) (last : Bool) : State :=
  { s with BLK := blockWords b, lastQ := last }

/-! ## Control state -/

/-- `seq <- (p, n)` (R11). -/
def State.goto (s : State) (p : Phase) (n : Index) : State := { s with seq := { phase := p, t := n } }

/-- `hs <- v` (R26). -/
def State.setSession (s : State) (v : Session) : State := { s with hs := v }

/-- `last_q <- 0` (43 R152). -/
def State.clearLast (s : State) : State := { s with lastQ := false }

/-- `LoadIV` (43 R151): `H[j] <- IV[j]`. -/
def State.loadIV (s : State) : State := s.writeHash initialHash

/-- The step of the sequencer inside a phase that runs up to the index `last` (44 R167): from `last` to
`(next, n)`, otherwise to the next index of the same phase. -/
def State.advance (s : State) (here : Phase) (t last : Index) (next : Phase) (n : Index) : State :=
  if t = last then s.goto next n else s.goto here (t + 1)

/-! ## The exception -/

/-- `raise SeqError(code)` (R204): the first error since the last `INIT` or reset is recorded; "nothing
else". No state is saved, control goes nowhere, no mode changes. -/
def State.raiseSeqError (s : State) (code : ErrCode) : State :=
  if s.err then s else { s with err := true, errCode := code }

/-- The end of the error state (R206): there is no return instruction; an accepted `INIT` clears `err` and
`err_code`. -/
def State.clearError (s : State) : State := { s with err := false, errCode := .none }

/-! ## Reset -/

/-- A step at which reset is in effect (R230): the control state takes the reset values; the data state
"is not given any value by reset", so it takes free values (log 2). -/
def State.resetEdge (s : State) : State :=
  { s with
    H := Config.hashAfterReset s.draws s.H
    r := Config.workAfterReset s.draws s.r
    W := Config.scheduleAfterReset s.draws s.W
    BLK := Config.blockAfterReset s.draws s.BLK
    hs := .empty
    seq := { phase := .idle, t := 0 }
    lastQ := false
    err := false
    errCode := .none
    draws := s.draws + 1 }

/-! ## The input ports -/

/-- The input ports at this step; when the list is used up the host presents nothing (log 3). -/
def State.portsNow (s : State) : PortIn := s.inputs.headD PortIn.quiet

/-- The state with this step's port sample used up. -/
def State.afterPorts (s : State) : State := { s with inputs := s.inputs.tail }

end Sys2Proof.Machine
end

