-- ==== Sys2Proof/Machine/Expander.lean ====
section
/-! DEFINITION. The message-schedule expander (spec 41_schedule_expander.md): `U_WLOAD`, `U_WEXP` and the
function `Expand`. -/

namespace Sys2Proof.Machine

/-- The expanded Word at `t >= 16` (R131): `SIG1(W[t-2]) + W[t-7] + SIG0(W[t-15]) + W[t-16]`. -/
def expandedWord (w : Schedule) (t : Index) : Word :=
  add32 (add32 (add32 (sig1 w[indexBack t 2]) w[indexBack t 7]) (sig0 w[indexBack t 15]))
    w[indexBack t 16]

/-- `U_WLOAD` (R130): `W[t] <- BLK[t]`; at 15 on to `(EXPAND, 16)`. Outside 0..15 the word does not exist. -/
def execUWload (t : Index) (s : State) : Host.Outcome State Fault Refusal :=
  if legalLoad t then
    .next ((s.writeW t (s.readBLK (blockIndex t))).advance .load t 15 .expand 16)
  else .fault .noMicroOperation

/-- `U_WEXP` (R131); at 63 on to `(WINIT, 0)`. Outside 16..63 the word does not exist. -/
def execUWexp (t : Index) (s : State) : Host.Outcome State Fault Refusal :=
  if legalExpand t then
    .next ((s.writeW t (expandedWord s.W t)).advance .expand t 63 .winit 0)
  else .fault .noMicroOperation

/-! ## The expander as a function -/

/-- One entry of a Schedule (R133): copied from the Block below 16, computed from earlier entries above. -/
def scheduleEntry (b : Block) (w : Schedule) (t : Index) : Word :=
  if t.val < 16 then b[blockIndex t] else expandedWord w t

/-- The first `n` entries put into the array `w`, in increasing order (R132). -/
def scheduleFrom (w : Schedule) (b : Block) : Nat → Schedule
  | 0 => w
  | n + 1 =>
    let prev := scheduleFrom w b n
    if h : n < 64 then prev.set n (scheduleEntry b prev ⟨n, h⟩) else prev

/-- `Expand(B)` (R133); what the array held before is overwritten before it is read. -/
def expand (b : Block) : Schedule := scheduleFrom (Vector.replicate 64 0) b 64

end Sys2Proof.Machine
end

