-- ==== Sys2Proof/Machine/RoundEngine.lean ====
section
/-! DEFINITION. The compression round engine (spec 42_round_engine.md): `U_WINIT`, `U_ROUND` and the
function `Rounds`. Of `r`, `a..h` are the entries 0 to 7 (10 R22). -/

namespace Sys2Proof.Machine

/-- `T1 = h + BSIG1(e) + CH(e, f, g) + K[t] + W[t]` (R141). -/
def roundT1 (r : Words8) (k w : Word) : Word :=
  add32 (add32 (add32 (add32 r[7] (bsig1 r[4])) (ch r[4] r[5] r[6])) k) w

/-- `T2 = BSIG0(a) + MAJ(a, b, c)` (R141). -/
def roundT2 (r : Words8) : Word := add32 (bsig0 r[0]) (maj r[0] r[1] r[2])

/-- The eight registers after a round, every source the old value (R142, 00 R10). -/
def roundRegs (r : Words8) (k w : Word) : Words8 :=
  #v[add32 (roundT1 r k w) (roundT2 r), r[0], r[1], r[2], add32 r[3] (roundT1 r k w), r[4], r[5], r[6]]

/-- `U_WINIT` (R140): `r <- H`, on to `(ROUND, 0)`. With `t` not 0 the word does not exist. -/
def execUWinit (t : Index) (s : State) : Host.Outcome State Fault Refusal :=
  if legalZero t then .next ((s.writeWork s.H).goto .round 0) else .fault .noMicroOperation

/-- `U_ROUND` (R142): one round with `K[t]` and `W[t]`; at 63 on to `(FEED, 0)`. -/
def execURound (t : Index) (s : State) : Host.Outcome State Fault Refusal :=
  .next ((s.writeWork (roundRegs s.r (readK t) (s.readW t))).advance .round t 63 .feed 0)

/-! ## The round engine as a function -/

/-- The register tuple `R_n` after the first `n` rounds (R143). -/
def roundsUpTo (h : Words8) (w : Schedule) : Nat → Words8
  | 0 => h
  | n + 1 =>
    let prev := roundsUpTo h w n
    if hn : n < 64 then roundRegs prev (readK ⟨n, hn⟩) w[n] else prev

/-- `Rounds(S, Wd) = R_64` (R143). -/
def rounds (h : Words8) (w : Schedule) : Words8 := roundsUpTo h w 64

/-- The registers before a round, from those after it (R144 (d)): the old `a, b, c, e, f, g` are the new
`b, c, d, f, g, h`; "the old `d` and `h` follow by subtraction". -/
def roundInverse (q : Words8) (k w : Word) : Words8 :=
  let a := q[1]
  let b := q[2]
  let c := q[3]
  let e := q[5]
  let f := q[6]
  let g := q[7]
  let t1 := q[0] - add32 (bsig0 a) (maj a b c)
  #v[a, b, c, q[4] - t1, e, f, g, t1 - w - k - ch e f g - bsig1 e]

end Sys2Proof.Machine
end

