-- ==== Sys2Proof/Machine/Accumulator.lean ====
section
/-! DEFINITION. The hash-state accumulator (spec 43_state_manager.md): `U_FEED` and the functions
`Compress` and `Digest`. -/

namespace Sys2Proof.Machine

/-- Word by Word addition modulo 2^32; "there is no carry between `H[j]` and `H[j+1]`" (R152). -/
def feedForward (h r : Words8) : Words8 :=
  #v[add32 h[0] r[0], add32 h[1] r[1], add32 h[2] r[2], add32 h[3] r[3],
    add32 h[4] r[4], add32 h[5] r[5], add32 h[6] r[6], add32 h[7] r[7]]

/-- `hs` after `U_FEED`: `DONE` if the block was the last, otherwise as it was (R152). -/
def sessionAfterFeed (s : State) : Session := if s.lastQ then .done else s.hs

/-- `U_FEED` (R152): `H[j] <- H[j] + r[j]`, close the block, on to `(IDLE, 0)`. With `t` not 0 the word does
not exist. -/
def execUFeed (t : Index) (s : State) : Host.Outcome State Fault Refusal :=
  if legalZero t then
    .next ((((s.writeHash (feedForward s.H s.r)).setSession (sessionAfterFeed s)).clearLast).goto .idle 0)
  else .fault .noMicroOperation

/-! ## The accumulator as functions -/

/-- `Compress(S, B)[j] = S[j] + Rounds(S, Expand(B))[j]` (R153). -/
def compress (h : Words8) (b : Block) : Words8 := feedForward h (rounds h (expand b))

/-- `S_n` of R154: the blocks folded in, in order, from the state `h`. -/
def foldBlocks (h : Words8) (bs : List Block) : Words8 := bs.foldl compress h

/-- `Digest(B[0], ..., B[n-1])` (R154): the fold from `IV`. The rule defines it for `n >= 1`; of no blocks the
model answers `S_0`, that is `IV`: DESIGN CHOICE, log 14. -/
def digestOf (bs : List Block) : Words8 := foldBlocks initialHash bs

end Sys2Proof.Machine
end

