-- ==== Sys2Proof/Machine/Commands.lean ====
section
/-! DEFINITION. The four commands (spec 44_commands.md). Each meaning is the effect of a completed transfer,
`accept(cmd, block)` (00 R11); that a transfer happens only in `IDLE` is `step`'s (44 R160). -/

namespace Sys2Proof.Machine

/-- `NOP` (R161): no state change. -/
def execNop (s : State) : Host.Outcome State Fault Refusal := .next s

/-- `INIT` (R162): `H <- IV`, `hs <- ACTIVE`, `err <- 0`, `err_code <- 0`; `seq` stays. -/
def execInit (s : State) : Host.Outcome State Fault Refusal :=
  .next ((s.loadIV.setSession .active).clearError)

/-- The shared effect of `BLOCK` and `BLOCK_LAST` at their transfer (R163, R164): latch and start in
`ACTIVE`, `SeqError` otherwise (60 R201). -/
def acceptBlock (last : Bool) (b : BitVec 512) (s : State) : State :=
  match s.hs with
  | .active => (s.latchBlock b last).goto .load 0
  | .empty => s.raiseSeqError .noInit
  | .done => s.raiseSeqError .terminal

/-- `BLOCK` (R163): `last_q <- 0`. -/
def execBlock (b : BitVec 512) (s : State) : Host.Outcome State Fault Refusal :=
  .next (acceptBlock false b s)

/-- `BLOCK_LAST` (R164): `last_q <- 1`. -/
def execBlockLast (b : BitVec 512) (s : State) : Host.Outcome State Fault Refusal :=
  .next (acceptBlock true b s)

end Sys2Proof.Machine
end

