-- ==== Sys2Proof/Machine/Dispatch.lean ====
section
/-! DEFINITION. Which meaning each instruction has. -/

namespace Sys2Proof.Machine

def exec (i : Instr) (s : State) : Host.Outcome State Fault Refusal :=
  match i with
  -- commands
  | .nop => Sys2Proof.Machine.execNop s
  | .init => Sys2Proof.Machine.execInit s
  | .block b => Sys2Proof.Machine.execBlock b s
  | .blockLast b => Sys2Proof.Machine.execBlockLast b s
  -- micro-operations
  | .uWload t => Sys2Proof.Machine.execUWload t s
  | .uWexp t => Sys2Proof.Machine.execUWexp t s
  | .uWinit t => Sys2Proof.Machine.execUWinit t s
  | .uRound t => Sys2Proof.Machine.execURound t s
  | .uFeed t => Sys2Proof.Machine.execUFeed t s

end Sys2Proof.Machine
end

