-- ==== Sys2Proof/Machine/Select.lean ====
section
/-! DEFINITION. Which word the machine runs next: what stands in the place of an instruction fetch
(spec 10 R27, 30 R91, 44 R160), and how a table row's word is put there. -/

namespace Sys2Proof.Machine

/-- The word selected at a step with the input ports `p`, reset not being in effect. In `IDLE` a transfer
needs `cmd_valid = 1` (R91), and without one the core waits; in every other phase the sequencer's own word
is run and `cmd_valid`, `cmd`, `block` "have no effect on anything" (R160). -/
def State.select (s : State) (p : PortIn) : Option CodeWord :=
  if s.cmdReady then
    if p.cmdValid then some (.cmd p.cmd p.block) else none
  else some (.seq s.seq.word)

/-- The state in which `select` selects the word `c` at the next step: for a `CMD` word the sequencer
waits and the host presents it; for a `SEQ` word the sequencer holds it and no reset is asked for. A
`SEQ` word whose phase does not exist cannot be held (R99 (b)). -/
def State.withCodeWord (s : State) : CodeWord → State
  | .cmd code b =>
    { s with
      seq := { phase := .idle, t := 0 }
      inputs := { rst := false, cmdValid := true, cmd := code, block := b } :: s.inputs }
  | .seq word =>
    match Phase.ofCode (seqPhase word) with
    | some p =>
      { s with seq := { phase := p, t := seqIndex word }, inputs := PortIn.quiet :: s.inputs }
    | none => s

end Sys2Proof.Machine
end

