-- ==== Sys2Proof/Machine/Step.lean ====
section
/-! DEFINITION. One step: a reset in effect, a micro-operation, a transfer, or an idle edge (spec 44 R160,
R167; 60 R208). -/

namespace Sys2Proof.Machine

/-- One step. "Reset wins over everything" (R208 (a)); a transfer and a micro-operation never coincide
(R208 (b)); in `IDLE` without a transfer no state changes (R160). Each step uses up one sample of the input
ports. -/
def step (s : State) : Host.Outcome State Fault Refusal :=
  if s.portsNow.rst then .next s.afterPorts.resetEdge
  else
    match s.select s.portsNow with
    | none => .next s.afterPorts
    | some c =>
      match decode c with
      | .ok i => exec i s.afterPorts
      | .error _ => .fault .noMicroOperation

/-- `s` with the row's word placed so that the very next step runs it (log 3, log 10). -/
def State.withFetchWord (s : State) (nbits w : Nat) : State :=
  match tableWord nbits w with
  | some c => s.withCodeWord c
  | none => s

end Sys2Proof.Machine
end

