-- ==== Sys2Proof/Machine/Fused.lean ====
section
/-! DEFINITION. A second design of the datapath that the spec allows (20 R73, 41 R134 (a), 42 R144 (b)):
a 16-Word window in place of the 64-Word schedule, each expanded Word computed in the round that drops the
oldest. No instruction runs it; it is stated equal to `Compress`. -/

namespace Sys2Proof.Machine

/-- Before round `t` the window holds `W[t..t+15]`, oldest first. -/
structure FusedState where
  window : Block
  regs : Words8
deriving DecidableEq, Repr

/-- The Word admitted to the window: the recurrence of R131 at `t + 16`. -/
def windowNext (v : Block) : Word :=
  add32 (add32 (add32 (sig1 v[14]) v[9]) (sig0 v[1])) v[0]

/-- "a 16-Word shift register that drops `S[i-16]` as it admits `S[i]`" (R134 (a)). -/
def windowShift (v : Block) : Block :=
  #v[v[1], v[2], v[3], v[4], v[5], v[6], v[7], v[8], v[9], v[10], v[11], v[12], v[13], v[14], v[15],
    windowNext v]

/-- One round with the schedule Word taken from the window (R73). -/
def fusedRound (q : FusedState) (t : Index) : FusedState :=
  { window := windowShift q.window, regs := roundRegs q.regs (readK t) q.window[0] }

/-- The fused engine after its first `n` rounds. -/
def fusedUpTo (h : Words8) (b : Block) : Nat → FusedState
  | 0 => { window := b, regs := h }
  | n + 1 => if hn : n < 64 then fusedRound (fusedUpTo h b n) ⟨n, hn⟩ else fusedUpTo h b n

/-- What the fused design leaves in `H`. -/
def fusedCompress (h : Words8) (b : Block) : Words8 := feedForward h (fusedUpTo h b 64).regs

end Sys2Proof.Machine
end

