-- ==== Sys2Proof/Machine/HostContract.lean ====
section
/-! DEFINITION. The host's side of the contract (spec 45_host_padding_contract.md): padding, block count,
`compute_digest`, the text form. "none adds state or behaviour to the core"; the core checks none of it
(R180). -/

namespace Sys2Proof.Machine

/-- "the exact limit is `N <= 2^61 - 1`" (R181, C2). -/
def messageLimit : Nat := 2 ^ 61 - 1

/-- The number of zero bytes, `(55 - N) mod 64` (R183), written without a negative number. -/
def zeroBytes (n : Nat) : Nat := (119 - n % 64) % 64

/-- The bit length `8 * N` as eight bytes, most significant first (R183). For a message beyond
`messageLimit`, which the spec admits none of (R181, C2), the value wraps modulo 2^64: DESIGN CHOICE,
log 13. -/
def lengthField (n : Nat) : List Byte :=
  (List.range 8).map fun i => BitVec.ofNat 8 ((8 * n) >>> (56 - 8 * i))

/-- The padded byte string (R183): the message, `0x80`, the zero bytes, the length field. -/
def pad (m : List Byte) : List Byte :=
  m ++ 0x80#8 :: (List.replicate (zeroBytes m.length) 0#8 ++ lengthField m.length)

/-- "`n = floor((N + 8) / 64) + 1`" (R184). -/
def blockCount (n : Nat) : Nat := (n + 8) / 64 + 1

/-- Block `k` of a message, as the port carries it: the `k`-th 64-byte piece of the padded string (R184,
20 R64, R65). -/
def messageBlock (m : List Byte) (k : Nat) : BitVec 512 := blockPort (((pad m).drop (64 * k)).take 64)

/-- The blocks `B[0..n-1]` of a message (R184). -/
def messageBlocks (m : List Byte) : List (BitVec 512) :=
  (List.range (blockCount m.length)).map (messageBlock m)

/-- `compute_digest(message)` (R188): the Digest of the padded blocks. -/
def computeDigest (m : List Byte) : Words8 := digestOf ((messageBlocks m).map blockWords)

/-! ## The text form (R189), a notation only -/

/-- A Word as "8 lowercase hex digits". -/
def wordText (w : Word) : List Char :=
  (List.range 8).map fun i => Nat.digitChar ((w.toNat >>> (28 - 4 * i)) % 16)

/-- `format_digest`: the eight Words, "space-separated", `H[0]` first. -/
def formatDigest (h : Words8) : List Char := List.intercalate [' '] (h.toList.map wordText)

end Sys2Proof.Machine
end

