-- ==== Sys2Proof/Machine/HostScript.lean ====
section
/-! DEFINITION. A host that drives the core's ports and samples them: the script notation (spec 30 R102,
R103), the handshake seen from the host (30 R91), the order of work of one message (45 R187). -/

namespace Sys2Proof.Machine

/-- What a host does next: transfer a command, or one of the host actions of R103. -/
inductive HostAction where
  | command (code : BitVec 2) (block : BitVec 512)
  | rdDigest
  | rdErr
  | reset
deriving DecidableEq, Repr

/-- What a host has sampled (R103). -/
inductive HostRead where
  | digest (value : BitVec 256)
  | err (flag : Bool) (code : BitVec 2)
deriving DecidableEq, Repr

/-- A host and its core: the actions still to do and the samples taken so far, oldest first. -/
structure HostRun where
  core : State
  todo : List HostAction
  reads : List HostRead
deriving DecidableEq, Repr

/-- The actions of `HASH` (R103, R187): `INIT`, `BLOCK` for every block but the last, `BLOCK_LAST`,
`RDDIGEST`. The spec leaves the `block` port free while `INIT` is transferred (R92, R102, U4); this script
shows zero there: DESIGN CHOICE, log 15. `doWork` takes every other value as well. -/
def hashScript (m : List Byte) : List HostAction :=
  let n := blockCount m.length
  .command 0b01#2 0 :: ((List.range (n - 1)).map (fun k => .command 0b10#2 (messageBlock m k)) ++
    [.command 0b11#2 (messageBlock m (n - 1)), .rdDigest])

/-- The order of work of one message (R187): steps (1) to (4) are those of `HASH`, and step (5) samples
`err`, to be checked to be 0. -/
def messageScript (m : List Byte) : List HostAction := hashScript m ++ [.rdErr]

/-- The action transfers a `NOP`, whose block operand is don't-care (R93, R102). -/
def HostAction.isNop : HostAction → Bool
  | .command code _ => code == 0b00#2
  | .rdDigest => false
  | .rdErr => false
  | .reset => false

/-- The action with the `block` port of a command that carries no block, which is don't-care (R92, R102), written
as `hashScript` writes it, as zero (log 15). -/
def HostAction.dropUnread : HostAction → HostAction
  | .command code b => .command code (if cmdBlk code then b else 0)
  | .rdDigest => .rdDigest
  | .rdErr => .rdErr
  | .reset => .reset

/-- A host's actions are the order of work of the message `m` with "`NOP`s ... inserted anywhere" and nothing
else issued (R187), whatever the `block` port shows while a `NOP` or the `INIT` is transferred. -/
def HostAction.doWork (m : List Byte) (todo : List HostAction) : Bool :=
  (todo.filter fun a => !a.isNop).map HostAction.dropUnread == messageScript m

/-- The core at a step at which the host puts `p` on the ports and nothing is known of later steps. -/
def State.present (s : State) (p : PortIn) : State := { s with inputs := [p] }

/-- The core makes one step with the ports `p`, and the host goes on with `todo`. -/
def HostRun.coreStep (h : HostRun) (p : PortIn) (todo : List HostAction) :
    Host.Outcome HostRun Fault Refusal :=
  match step (h.core.present p) with
  | .next s => .next { h with core := s, todo := todo }
  | .fault f => .fault f
  | .refused r => .refused r

/-- One step of the host. A command is presented until it is transferred, which it is at a step with
`cmd_ready = 1` (R91); `RDDIGEST` waits for `cmd_ready = 1` and `digest_valid = 1` and then samples, without
a step of the core (R103, 20 R70). -/
def HostRun.hostStep (h : HostRun) : Host.Outcome HostRun Fault Refusal :=
  match h.todo with
  | [] => h.coreStep PortIn.quiet []
  | .command code block :: rest =>
    h.coreStep { rst := false, cmdValid := true, cmd := code, block := block }
      (if h.core.cmdReady then rest else h.todo)
  | .rdDigest :: rest =>
    match h.core.cmdReady, h.core.digest with
    | true, some d => .next { h with todo := rest, reads := h.reads ++ [.digest d] }
    | _, _ => h.coreStep PortIn.quiet h.todo
  | .rdErr :: rest =>
    .next { h with todo := rest, reads := h.reads ++ [.err h.core.err h.core.errCode.code] }
  | .reset :: rest => h.coreStep { PortIn.quiet with rst := true } rest

/-- `n` steps of the host. -/
def HostRun.hostSteps : Nat → HostRun → Host.Outcome HostRun Fault Refusal
  | 0, h => .next h
  | n + 1, h =>
    match h.hostStep with
    | .next h' => HostRun.hostSteps n h'
    | .fault f => .fault f
    | .refused r => .refused r

end Sys2Proof.Machine
end

