-- ==== Sys2Proof/Safety.lean ====
section
/-! DEFINITION. What counts as a safe run: runs, the invariants of reachable states (spec 10 R35; 95
section 3), and when two states cannot be told apart (10 R36, R38; 40 R122 (e)). -/

namespace Sys2Proof.Machine

/-! ## Runs -/

/-- `n` steps, stopping at the first fault or refusal: `Host.Core.run` of this machine. -/
def run : Nat → State → Host.Outcome State Fault Refusal
  | 0, s => .next s
  | n + 1, s =>
    match step s with
    | .next s' => run n s'
    | .fault f => .fault f
    | .refused r => .refused r

/-- No reset is in effect at the coming `n` steps. -/
def NoReset (n : Nat) (s : State) : Prop := ∀ p ∈ s.inputs.take n, p.rst = false

/-- At the coming step a command is transferred with these ports (30 R91): `cmd_valid = 1` and
`cmd_ready = 1`, and no reset in effect (60 R208). -/
def Transfer (s : State) (code : BitVec 2) : Prop :=
  s.portsNow.rst = false ∧ s.cmdReady = true ∧ s.portsNow.cmdValid = true ∧ s.portsNow.cmd = code

/-! ## Invariants -/

/-- `t` lies in the legal range of its phase (R35 (b), 30 R94). -/
def Seq.legal (q : Seq) : Bool :=
  match q.phase with
  | .idle => legalZero q.t
  | .load => legalLoad q.t
  | .expand => legalExpand q.t
  | .winit => legalZero q.t
  | .round => true
  | .feed => legalZero q.t

/-- R35 (a) to (d), clause by clause. -/
abbrev ControlInv (s : State) : Prop :=
  (s.seq.phase = .idle ∨ s.hs = .active) ∧
  s.seq.legal = true ∧
  (s.lastQ = true → s.seq.phase ≠ .idle) ∧
  (s.err = false → s.errCode = .none) ∧
  (s.err = true → s.errCode = .noInit ∨ s.errCode = .terminal)

/-- 95 section 3: "in reachable states `err = 1` implies (`hs = EMPTY` and `err_code = 1`) or (`hs = DONE`
and `err_code = 2`)". -/
abbrev ErrorInv (s : State) : Prop :=
  s.err = true → (s.hs = .empty ∧ s.errCode = .noInit) ∨ (s.hs = .done ∧ s.errCode = .terminal)

/-- R35 (f) by content: what a micro-operation reads is what the earlier ones of this block wrote. -/
abbrev DataInv (s : State) : Prop :=
  (s.seq.phase = .load → ∀ i : Index, i < s.seq.t → s.W[i] = (expand s.BLK)[i]) ∧
  (s.seq.phase = .expand → ∀ i : Index, i < s.seq.t → s.W[i] = (expand s.BLK)[i]) ∧
  (s.seq.phase = .winit → s.W = expand s.BLK) ∧
  (s.seq.phase = .round → s.W = expand s.BLK ∧ s.r = roundsUpTo s.H (expand s.BLK) s.seq.t.val) ∧
  (s.seq.phase = .feed → s.r = rounds s.H (expand s.BLK))

/-! ## States that cannot be told apart -/

/-- Two states with the same control state and the same coming ports, whose data state agrees wherever R35
(e) and (f) say it has been written: `H` once a computation has been opened, the scratch as far as the
block in progress has written it. Everything else may differ. -/
structure Agree (s s' : State) : Prop where
  hs : s.hs = s'.hs
  seq : s.seq = s'.seq
  lastQ : s.lastQ = s'.lastQ
  err : s.err = s'.err
  errCode : s.errCode = s'.errCode
  inputs : s.inputs = s'.inputs
  hash : s.hs ≠ .empty → s.H = s'.H
  load : s.seq.phase = .load → s.BLK = s'.BLK ∧ ∀ i : Index, i < s.seq.t → s.W[i] = s'.W[i]
  expand : s.seq.phase = .expand → ∀ i : Index, i < s.seq.t → s.W[i] = s'.W[i]
  winit : s.seq.phase = .winit → s.W = s'.W
  round : s.seq.phase = .round → s.W = s'.W ∧ s.r = s'.r
  feed : s.seq.phase = .feed → s.r = s'.r

/-- The ports but for the block operand. -/
def PortIn.control (p : PortIn) : Bool × Bool × BitVec 2 := (p.rst, p.cmdValid, p.cmd)

/-- Two states with the same control state and the same coming commands, whatever the data and the block
operands. -/
structure SameControl (s s' : State) : Prop where
  hs : s.hs = s'.hs
  seq : s.seq = s'.seq
  lastQ : s.lastQ = s'.lastQ
  err : s.err = s'.err
  errCode : s.errCode = s'.errCode
  inputs : s.inputs.map PortIn.control = s'.inputs.map PortIn.control

end Sys2Proof.Machine
end

