-- ==== Sys2Proof/Certificates/Slice0/Obligations.lean ====
section
/-! DEFINITION. The statements for the provers, from the numbered rules of spec/. Where a statement rests on
a choice of the model its docstring names the log entry. -/

open Sys2Proof Sys2Proof.Machine

/-! ## Encoding -/

/-- Words written out from the codes of 30 R93 and R94: each command, each phase at the ends of its range of
`t`, a block operand, and the words that select no instruction. -/
def Obligations.WrittenOutWordsDecode : Prop :=
  decodeTableWord 8 0b00 = some .nop ∧
  decodeTableWord 8 0b01 = some .init ∧
  decodeTableWord 8 0b10 = some (.block 0) ∧
  decodeTableWord 8 0b11 = some (.blockLast 0) ∧
  decodeTableWord 520 (0b11 + 4 * 0x18) = some (.blockLast 0x18) ∧
  decodeTableWord 16 0b001000000 = some (.uWload 0) ∧
  decodeTableWord 16 0b001001111 = some (.uWload 15) ∧
  decodeTableWord 16 0b010010000 = some (.uWexp 16) ∧
  decodeTableWord 16 0b010111111 = some (.uWexp 63) ∧
  decodeTableWord 16 0b011000000 = some (.uWinit 0) ∧
  decodeTableWord 16 0b100000000 = some (.uRound 0) ∧
  decodeTableWord 16 0b100111111 = some (.uRound 63) ∧
  decodeTableWord 16 0b101000000 = some (.uFeed 0) ∧
  decodeTableWord 16 0b000000000 = none ∧
  decodeTableWord 16 0b110000000 = none ∧
  decodeTableWord 16 0b111111111 = none

/-- 30 R93, R94, R98: decoding the word of an instruction, numbered as the table numbers it, gives the
instruction back with every operand; for every instruction, well-formed or not. -/
def Obligations.DecodeEncodeRoundTrip : Prop :=
  ∀ i : Instr, decodeTableWord (encode i).tableBits (encode i).tableNat = some i

/-- 30 R93, R94, R98, R99: every command code is an instruction; a sequencer word is one exactly when its
phase is 001 to 101; and an instruction's word is the only one of its format that decodes to it, but for the
block port of `NOP` and `INIT`, which is not read and which the encoder writes as zero (the model's choice, log 15). -/
def Obligations.EveryWordIsAnInstructionOrSelectsNone : Prop :=
  (∀ code b, ∃ i, decode (.cmd code b) = .ok i ∧
    encode i = .cmd code (if code.getLsbD 1 then b else 0)) ∧
  (∀ w i, decode (.seq w) = .ok i → encode i = .seq w) ∧
  (∀ w, decode (.seq w) = .error .idlePhase ↔ seqPhase w = 0b000#3) ∧
  (∀ w, decode (.seq w) = .error .noSuchPhase ↔ (seqPhase w = 0b110#3 ∨ seqPhase w = 0b111#3))

/-! ## A step runs the decoded instruction -/

/-- 44 R160, R167; 60 R208: when no reset is in effect and the word selected decodes to `i`, the step is
`exec i` on the state whose port sample is used up (the list of samples is the model's own, log 3). -/
def Obligations.StepRunsTheSelectedInstruction : Prop :=
  ∀ (s : State) (c : CodeWord) (i : Instr), s.portsNow.rst = false → s.select s.portsNow = some c →
    decode c = .ok i → step s = exec i s.afterPorts

/-- 30 R91, R94; 44 R160: which instruction a step runs. In `IDLE` a command on the ports is transferred
and run with the port's block; in every other phase the micro-operation of the phase is run at `t`, whatever
the command ports show. Each is run on the state with one port sample used up, which is the model's choice
(log 3). -/
def Obligations.PhaseSelectsTheInstruction : Prop :=
  ∀ s : State, s.portsNow.rst = false →
    (s.seq.phase = .idle → s.portsNow.cmdValid = true →
      (s.portsNow.cmd = 0b00#2 → step s = exec .nop s.afterPorts) ∧
      (s.portsNow.cmd = 0b01#2 → step s = exec .init s.afterPorts) ∧
      (s.portsNow.cmd = 0b10#2 → step s = exec (.block s.portsNow.block) s.afterPorts) ∧
      (s.portsNow.cmd = 0b11#2 → step s = exec (.blockLast s.portsNow.block) s.afterPorts)) ∧
    (s.seq.phase = .load → step s = exec (.uWload s.seq.t) s.afterPorts) ∧
    (s.seq.phase = .expand → step s = exec (.uWexp s.seq.t) s.afterPorts) ∧
    (s.seq.phase = .winit → step s = exec (.uWinit s.seq.t) s.afterPorts) ∧
    (s.seq.phase = .round → step s = exec (.uRound s.seq.t) s.afterPorts) ∧
    (s.seq.phase = .feed → step s = exec (.uFeed s.seq.t) s.afterPorts)

/-- A row's word put where the machine selects its next word (the model's own arrangement, log 10) is run by
the very next step, on a state that differs from the given one in the sequencer only. -/
def Obligations.PlacedWordIsRunNext : Prop :=
  ∀ (s : State) (nbits w : Nat) (i : Instr), decodeTableWord nbits w = some i →
    ∃ q : Seq, step (s.withFetchWord nbits w) = exec i { s with seq := q }

/-! ## Which instructions complete -/

/-- 30 R94, R99 (b); 44 R169; 60 R200; U6: `exec` answers a next state exactly for the well-formed
instructions, in every state; a micro-operation whose `t` lies outside the legal range of its phase is a
state that does not exist, where the model is stuck by name. -/
def Obligations.CompletesExactlyWhenWellFormed : Prop :=
  ∀ (i : Instr) (s : State),
    (i.wf = true → ∃ s', exec i s = .next s') ∧ (i.wf = false → exec i s = .fault .noMicroOperation)

/-! ## Function units (40) -/

/-- 40 R110: addition modulo 2^32, commutative and associative, with the corner cases and the example. -/
def Obligations.AddWrapsModulo : Prop :=
  (∀ x y, (add32 x y).toNat = (x.toNat + y.toNat) % 2 ^ 32) ∧
  (∀ x y, add32 x y = add32 y x) ∧
  (∀ x y z, add32 (add32 x y) z = add32 x (add32 y z)) ∧
  (∀ x, add32 x 0 = x) ∧
  add32 0xffffffff#32 0x00000001#32 = 0x00000000#32 ∧
  add32 0x80000000#32 0x80000000#32 = 0x00000000#32 ∧
  add32 0xffffffff#32 0xffffffff#32 = 0xfffffffe#32 ∧
  add32 0xbb67ae85#32 0xd39a2165#32 = 0x8f01cfea#32

/-- 40 R111: for 1 to 31, `rotr` is the two shifts put together, and bit `i` of the result is bit
`(i + n) mod 32` of `x`; so distinct Words stay distinct. -/
def Obligations.RotrIsACircularRotation : Prop :=
  ∀ (x : Word) (n : Nat), 1 ≤ n → n ≤ 31 →
    rotr x n = (x >>> n) ||| (x <<< (32 - n)) ∧
    (∀ i, i < 32 → (rotr x n).getLsbD i = x.getLsbD ((i + n) % 32)) ∧
    (∀ y : Word, rotr x n = rotr y n → x = y)

/-- 40 R112: for amounts up to 31, `shr` is the quotient by a power of two; it fills with zeros, not with the
sign. -/
def Obligations.ShrIsTheQuotient : Prop :=
  ∀ (x : Word) (n : Nat), n ≤ 31 → (shr x n).toNat = x.toNat / 2 ^ n ∧
    (∀ i, i < 32 → (shr x n).getLsbD i = (decide (i + n < 32) && x.getLsbD (i + n)))

/-- 40 R113 to R115: the bitwise units, bit by bit, and the complement as a subtraction. -/
def Obligations.BitwiseUnitsBitByBit : Prop :=
  ∀ (x y : Word),
    (∀ i, i < 32 → (xor32 x y).getLsbD i = (x.getLsbD i != y.getLsbD i)) ∧
    (∀ i, i < 32 → (and32 x y).getLsbD i = (x.getLsbD i && y.getLsbD i)) ∧
    (∀ i, i < 32 → (not32 x).getLsbD i = !(x.getLsbD i)) ∧
    not32 x = 0xffffffff#32 - x ∧
    xor32 x 0xffffffff#32 = not32 x

/-- 40 R116 to R119: each bit of the four sigma functions, with the rotation and shift amounts of 30 R96. -/
def Obligations.SigmaFunctionsBitByBit : Prop :=
  ∀ (x : Word) (i : Nat), i < 32 →
    (sig0 x).getLsbD i =
      ((x.getLsbD ((i + 7) % 32) ^^ x.getLsbD ((i + 18) % 32)) ^^
        (decide (i + 3 < 32) && x.getLsbD (i + 3))) ∧
    (sig1 x).getLsbD i =
      ((x.getLsbD ((i + 17) % 32) ^^ x.getLsbD ((i + 19) % 32)) ^^
        (decide (i + 10 < 32) && x.getLsbD (i + 10))) ∧
    (bsig0 x).getLsbD i =
      ((x.getLsbD ((i + 2) % 32) ^^ x.getLsbD ((i + 13) % 32)) ^^ x.getLsbD ((i + 22) % 32)) ∧
    (bsig1 x).getLsbD i =
      ((x.getLsbD ((i + 6) % 32) ^^ x.getLsbD ((i + 11) % 32)) ^^ x.getLsbD ((i + 25) % 32))

/-- 40 R120: where `x` has a 1, `CH` takes the bit of `y`, elsewhere the bit of `z`; and the equivalent
forms. -/
def Obligations.ChooseTakesTheChosenBit : Prop :=
  ∀ x y z : Word,
    (∀ i, i < 32 → (ch x y z).getLsbD i = if x.getLsbD i then y.getLsbD i else z.getLsbD i) ∧
    ch x y z = z ^^^ (x &&& (y ^^^ z)) ∧
    ch x y z = (x &&& y) ||| (~~~x &&& z) ∧
    ch 0xffffffff#32 y z = y ∧ ch 0#32 y z = z ∧ ch x y y = y

/-- 40 R121: the bit of `MAJ` is 1 exactly when at least two of the three are; it is symmetric; and the
equivalent forms. -/
def Obligations.MajorityOfThreeBits : Prop :=
  ∀ x y z : Word,
    (∀ i, i < 32 → (maj x y z).getLsbD i =
      decide (2 ≤ (x.getLsbD i).toNat + (y.getLsbD i).toNat + (z.getLsbD i).toNat)) ∧
    maj x y z = maj y x z ∧ maj x y z = maj x z y ∧
    maj x y z = (x &&& y) ||| (z &&& (x ||| y)) ∧
    maj x y z = (x &&& y) ^^^ (z &&& (x ^^^ y)) ∧
    maj x x z = x ∧ maj 0#32 y z = y &&& z ∧ maj 0xffffffff#32 y z = y ||| z

/-! ## Constants and storage -/

/-- 20 R63, 43 R150: `K[t]` is the first 32 bits of the fractional part of the cube root of the `t`-th
prime, `IV[j]` of the square root of the `j`-th. -/
def Obligations.ConstantsAreRootsOfPrimes : Prop :=
  primesTo311 = (List.range 312).filter (fun p => decide (Nat.Prime p)) ∧ primesTo311.length = 64 ∧
  (∀ t : Index, ∃ c : Nat,
    (c * 2 ^ 32 + (readK t).toNat) ^ 3 ≤ primesTo311[t]! * 2 ^ 96 ∧
    primesTo311[t]! * 2 ^ 96 < (c * 2 ^ 32 + (readK t).toNat + 1) ^ 3) ∧
  (∀ j : Fin 8, ∃ c : Nat,
    (c * 2 ^ 32 + (initialHash[j] : Word).toNat) ^ 2 ≤ primesTo311[j]! * 2 ^ 64 ∧
    primesTo311[j]! * 2 ^ 64 < (c * 2 ^ 32 + (initialHash[j] : Word).toNat + 1) ^ 2)

/-- 20 R60, R62, R72: after `W[t] <- v`, reading `W[t]` gives `v`, and every other Word of every storage
space, the ROM's among them, reads as before. -/
def Obligations.ScheduleWriteThenRead : Prop :=
  ∀ (s : State) (t : Index) (v : Word),
    (s.writeW t v).memRead .W t = v ∧
    (∀ u : Index, u ≠ t → (s.writeW t v).memRead .W u = s.memRead .W u) ∧
    (∀ (sp : Space) (i : Fin sp.entries), sp ≠ .W → (s.writeW t v).memRead sp i = s.memRead sp i)

/-! ## Ports -/

/-- 20 R64, R65; 30 R95: the Words cut from the block port, as slices and as four bytes each with the
earliest byte the most significant; and the port that carries sixty-four given bytes shows byte `k` at
`block[511-8k : 504-8k]`. -/
def Obligations.BlockPortCarriesBytesInOrder : Prop :=
  (∀ (b : BitVec 512) (i : Fin 16), (blockWords b)[i] = b.extractLsb' (480 - 32 * i.val) 32) ∧
  (∀ (b : BitVec 512) (i : Fin 16),
    (blockWords b)[i] = blockByte b ⟨4 * i.val, by omega⟩ ++ (blockByte b ⟨4 * i.val + 1, by omega⟩ ++
      (blockByte b ⟨4 * i.val + 2, by omega⟩ ++ blockByte b ⟨4 * i.val + 3, by omega⟩))) ∧
  (∀ (p : List Byte), p.length = 64 → ∀ k : Fin 64, blockByte (blockPort p) k = p[k]!)

/-- 10 R31: the status outputs are functions of the state; where the invariant of 10 R35 holds,
`digest_valid = 1` implies `cmd_ready = 1`, which R31 marks as derived. -/
def Obligations.StatusOutputsFollowTheState : Prop :=
  (∀ s : State, (s.outputs.cmdReady = true ↔ s.seq.phase = .idle) ∧
    (s.outputs.digestValid = true ↔ s.hs = .done)) ∧
  (∀ s : State, ControlInv s → s.outputs.digestValid = true → s.outputs.cmdReady = true)

/-- 10 R32, 20 R66: while `digest_valid = 1` the port shows `H`, `H[0]` most significant, and its bytes are
the Words' bytes, most significant first; while it is 0 the port has no value (log 4). -/
def Obligations.DigestPortShowsTheHash : Prop :=
  ∀ s : State,
    (s.hs = .done → ∃ d, s.outputs.digest = some d ∧
      (∀ j : Fin 8, d.extractLsb' (224 - 32 * j.val) 32 = s.H[j]) ∧
      (∀ (j : Fin 8) (i : Fin 4),
        digestByte d ⟨4 * j.val + i.val, by omega⟩ = (s.H[j]).extractLsb' (24 - 8 * i.val) 8)) ∧
    (s.hs ≠ .done → s.outputs.digest = none)

/-- 10 R32, 43 R156, 44 R166: in `DONE` a step at which neither a reset is in effect nor an `INIT` is
transferred leaves `H`, `hs` and the digest port as they are, and nothing else changes but `err` and
`err_code` (and the model's port list, log 3). -/
def Obligations.FinishedDigestIsFrozen : Prop :=
  ∀ s s' : State, ControlInv s → s.hs = .done → s.portsNow.rst = false → ¬ Transfer s 0b01#2 →
    step s = .next s' →
    s' = { s.afterPorts with err := s'.err, errCode := s'.errCode } ∧ s'.outputs.digest = s.outputs.digest

/-! ## Commands (44) -/

/-- 44 R161: `NOP` changes no state, in every session state; `err` is not cleared; and a step at which it is
transferred (30 R91, 44 R160) changes nothing (the model's port list moves on, log 3). -/
def Obligations.NopChangesNothing : Prop :=
  (∀ s : State, exec .nop s = .next s) ∧
  (∀ s : State, Transfer s 0b00#2 → step s = .next s.afterPorts)

/-- 44 R162, 43 R151: in every session state `INIT` loads the eight initial values, sets `ACTIVE`, clears
`err` and `err_code`, and leaves everything else, `seq` among it, as it was; two in a row equal one. -/
def Obligations.InitOpensAComputation : Prop :=
  ∀ s : State, ∃ s', exec .init s = .next s' ∧
    s'.H = #v[0x6a09e667#32, 0xbb67ae85#32, 0x3c6ef372#32, 0xa54ff53a#32,
      0x510e527f#32, 0x9b05688c#32, 0x1f83d9ab#32, 0x5be0cd19#32] ∧
    s'.hs = .active ∧ s'.err = false ∧ s'.errCode = .none ∧ s'.outputs.digestValid = false ∧
    s' = { s with H := s'.H, hs := s'.hs, err := s'.err, errCode := s'.errCode } ∧
    exec .init s' = .next s'

/-- 44 R163, R164: in `ACTIVE`, `BLOCK` and `BLOCK_LAST` latch the sixteen Words, record which of the two it
was in `last_q`, and start the sequencer at `(LOAD, 0)`, so that `cmd_ready` becomes 0; nothing else changes,
`err` and `err_code` among it. -/
def Obligations.BlockIsAcceptedWhenActive : Prop :=
  ∀ (s : State) (b : BitVec 512), s.hs = .active →
    (∃ s', exec (.block b) s = .next s' ∧
      (∀ i : Fin 16, s'.BLK[i] = b.extractLsb' (480 - 32 * i.val) 32) ∧
      s'.lastQ = false ∧ s'.seq = ⟨.load, 0⟩ ∧ s'.outputs.cmdReady = false ∧
      s' = { s with BLK := s'.BLK, lastQ := s'.lastQ, seq := s'.seq }) ∧
    (∃ s', exec (.blockLast b) s = .next s' ∧
      (∀ i : Fin 16, s'.BLK[i] = b.extractLsb' (480 - 32 * i.val) 32) ∧
      s'.lastQ = true ∧ s'.seq = ⟨.load, 0⟩ ∧ s'.outputs.cmdReady = false ∧
      s' = { s with BLK := s'.BLK, lastQ := s'.lastQ, seq := s'.seq })

/-- 60 R201, R204, R205; 44 R163, R164: in `EMPTY` and in `DONE` both block commands raise `SeqError`: `err`
and the cause are recorded if `err` was 0, kept if it was 1, and nothing else changes; `cmd_ready` and
`digest_valid` keep their values. -/
def Obligations.SeqErrorRecordsTheFirstCause : Prop :=
  ∀ (s : State) (b : BitVec 512) (code : ErrCode),
    (s.hs = .empty ∧ code = .noInit) ∨ (s.hs = .done ∧ code = .terminal) →
    ∃ s', exec (.block b) s = .next s' ∧ exec (.blockLast b) s = .next s' ∧
      s'.err = true ∧
      (s.err = false → s'.errCode = code) ∧ (s.err = true → s'.errCode = s.errCode) ∧
      s' = { s with err := s'.err, errCode := s'.errCode } ∧
      s'.outputs.cmdReady = s.outputs.cmdReady ∧ s'.outputs.digestValid = s.outputs.digestValid ∧
      (code = .noInit → code.code = 1#2) ∧ (code = .terminal → code.code = 2#2)

/-- 44 R165, 10 R26: `hs` after any step: `EMPTY` after a reset in effect, `ACTIVE` after an `INIT`, `DONE`
after the `U_FEED` of a last block, and in every other case what it was. -/
def Obligations.SessionStateTransitions : Prop :=
  ∀ s s' : State, step s = .next s' →
    (s.portsNow.rst = true → s'.hs = .empty) ∧
    (Transfer s 0b01#2 → s'.hs = .active) ∧
    (s.portsNow.rst = false → s.seq.phase = .feed → s.lastQ = true → s'.hs = .done) ∧
    (s.portsNow.rst = false → ¬ Transfer s 0b01#2 → ¬ (s.seq.phase = .feed ∧ s.lastQ = true) →
      s'.hs = s.hs)

/-- 44 R160, 60 R217: in `IDLE`, with neither a reset nor a command, no state changes (the model's port list
moves on, log 3). -/
def Obligations.IdleWaitsWithoutChange : Prop :=
  ∀ s : State, s.seq.phase = .idle → s.portsNow.rst = false → s.portsNow.cmdValid = false →
    step s = .next s.afterPorts

/-- 44 R160, 30 R91, 20 R77: while a block is in progress the values of `cmd_valid`, `cmd` and `block` have
no effect on anything, and in `IDLE` those of `cmd` and `block` have none while `cmd_valid = 0`. The ports at
the step are the head of the model's port list (log 3). -/
def Obligations.PortsHaveNoEffectOutsideATransfer : Prop :=
  ∀ (s : State) (p p' : PortIn) (later : List PortIn), p.rst = false → p'.rst = false →
    (s.seq.phase ≠ .idle ∨ (p.cmdValid = false ∧ p'.cmdValid = false)) →
    step { s with inputs := p :: later } = step { s with inputs := p' :: later }

/-! ## Micro-operations (41, 42, 43) -/

/-- 41 R130: for `t` in 0..15, `U_WLOAD` copies `BLK[t]` to `W[t]` unchanged, no other Word of `W` changes,
the sequencer goes to `t + 1`, from 15 to `(EXPAND, 16)`, and nothing else changes. -/
def Obligations.WloadCopiesABlockWord : Prop :=
  ∀ (s : State) (t : Index) (h : t.val < 16), ∃ s', exec (.uWload t) s = .next s' ∧
    s'.readW t = s.BLK[t.val] ∧ (∀ u : Index, u ≠ t → s'.readW u = s.readW u) ∧
    (t.val < 15 → s'.seq.phase = .load ∧ s'.seq.t.val = t.val + 1) ∧
    (t.val = 15 → s'.seq = ⟨.expand, 16⟩) ∧
    s' = { s with W := s'.W, seq := s'.seq }

/-- 41 R131, 30 R97: for `t` in 16..63, `U_WEXP` writes `SIG1(W[t-2]) + W[t-7] + SIG0(W[t-15]) + W[t-16]`,
modulo 2^32, to `W[t]`, which is none of its sources; no other Word of `W` changes, the sequencer goes to
`t + 1`, from 63 to `(WINIT, 0)`, and nothing else changes. -/
def Obligations.WexpComputesAScheduleWord : Prop :=
  ∀ (s : State) (t : Index) (h : 16 ≤ t.val), ∃ s', exec (.uWexp t) s = .next s' ∧
    (s'.readW t).toNat =
      ((sig1 s.W[t.val - 2]).toNat + (s.W[t.val - 7]).toNat + (sig0 s.W[t.val - 15]).toNat +
        (s.W[t.val - 16]).toNat) % 2 ^ 32 ∧
    (∀ u : Index, u ≠ t → s'.readW u = s.readW u) ∧
    (t.val < 63 → s'.seq.phase = .expand ∧ s'.seq.t.val = t.val + 1) ∧
    (t.val = 63 → s'.seq = ⟨.winit, 0⟩) ∧
    s' = { s with W := s'.W, seq := s'.seq }

/-- 42 R140: `U_WINIT` copies the eight Words of `H` to `r`, goes to `(ROUND, 0)`, and changes nothing else,
`H` among it. -/
def Obligations.WinitLoadsTheHash : Prop :=
  ∀ s : State, ∃ s', exec (.uWinit 0) s = .next s' ∧
    (∀ j : Fin 8, s'.readR j = s.readH j) ∧ s'.seq = ⟨.round, 0⟩ ∧
    s' = { s with r := s'.r, seq := s'.seq }

/-- 42 R141, R142; 00 R10: `U_ROUND` at `t`: `a <- T1 + T2`, `e <- d + T1`, the six copies, every source the
old value, sums modulo 2^32; the sequencer goes to `t + 1`, from 63 to `(FEED, 0)`; nothing else changes. -/
def Obligations.RoundAssignsTheRegisters : Prop :=
  ∀ (s : State) (t : Index), ∃ s' T1 T2, exec (.uRound t) s = .next s' ∧
    T1 = ((s.r[7]).toNat + (bsig1 s.r[4]).toNat + (ch s.r[4] s.r[5] s.r[6]).toNat + (readK t).toNat +
      (s.readW t).toNat) % 2 ^ 32 ∧
    T2 = ((bsig0 s.r[0]).toNat + (maj s.r[0] s.r[1] s.r[2]).toNat) % 2 ^ 32 ∧
    (s'.r[0]).toNat = (T1 + T2) % 2 ^ 32 ∧ s'.r[1] = s.r[0] ∧ s'.r[2] = s.r[1] ∧ s'.r[3] = s.r[2] ∧
    (s'.r[4]).toNat = ((s.r[3]).toNat + T1) % 2 ^ 32 ∧
    s'.r[5] = s.r[4] ∧ s'.r[6] = s.r[5] ∧ s'.r[7] = s.r[6] ∧
    (t.val < 63 → s'.seq.phase = .round ∧ s'.seq.t.val = t.val + 1) ∧
    (t.val = 63 → s'.seq = ⟨.feed, 0⟩) ∧
    s' = { s with r := s'.r, seq := s'.seq }

/-- 43 R152, C4: `U_FEED` adds `r[j]` to `H[j]` modulo 2^32, each on its own; sets `DONE` if `last_q = 1` and
leaves `hs` otherwise; clears `last_q`; goes to `(IDLE, 0)`, so that `cmd_ready` becomes 1; and changes
nothing else, `r`, `W`, `BLK` among it. -/
def Obligations.FeedAddsWordByWord : Prop :=
  ∀ s : State, ∃ s', exec (.uFeed 0) s = .next s' ∧
    (∀ j : Fin 8, (s'.readH j).toNat = ((s.readH j).toNat + (s.readR j).toNat) % 2 ^ 32) ∧
    (s.lastQ = true → s'.hs = .done) ∧ (s.lastQ = false → s'.hs = s.hs) ∧
    s'.lastQ = false ∧ s'.seq = ⟨.idle, 0⟩ ∧ s'.outputs.cmdReady = true ∧
    (s.lastQ = true → s'.outputs.digestValid = true) ∧
    s' = { s with H := s'.H, hs := s'.hs, lastQ := s'.lastQ, seq := s'.seq }

/-- 42 R144 (d): a round is invertible given `W[t]` and `K[t]`, in both directions. -/
def Obligations.RoundIsInvertible : Prop :=
  ∀ (q : Words8) (k w : Word),
    roundInverse (roundRegs q k w) k w = q ∧ roundRegs (roundInverse q k w) k w = q

/-! ## The functions (41, 43) -/

/-- 41 R133: `Expand(B)` is the one sequence with `S[i] = B[i]` below 16 and
`S[i] = SIG1(S[i-2]) + S[i-7] + SIG0(S[i-15]) + S[i-16]` above, whatever the array held before. -/
def Obligations.ExpandIsTheRecurrence : Prop :=
  ∀ (b : Block) (before w : Schedule),
    ((∀ (i : Nat) (h : i < 16), w[i] = b[i]) ∧
      (∀ (i : Nat) (h : i < 64), 16 ≤ i →
        w[i] = sig1 w[i - 2] + w[i - 7] + sig0 w[i - 15] + w[i - 16])) ↔
    (w = expand b ∧ w = scheduleFrom before b 64)

/-- 41 R131 corner case (d): a block of zeros expands to zeros. -/
def Obligations.ZeroBlockExpandsToZero : Prop :=
  ∀ i : Index, (expand (Vector.replicate 16 0))[i] = 0

/-- 43 R153, R154: `Compress` adds `Rounds(S, Expand(B))` to `S` Word by Word modulo 2^32, and `Digest` folds
it over the blocks, in order, from the initial values. R154 is for one block or more; that `Digest` of no blocks is
`IV` is the model's choice (log 14). -/
def Obligations.DigestFoldsCompress : Prop :=
  (∀ (h : Words8) (b : Block) (j : Fin 8),
    ((compress h b)[j]).toNat = ((h[j]).toNat + ((rounds h (expand b))[j]).toNat) % 2 ^ 32) ∧
  digestOf [] = initialHash ∧
  (∀ (bs : List Block) (b : Block), digestOf (bs ++ [b]) = compress (digestOf bs) b)

/-- 20 R73, 41 R134 (a): the design with a 16-Word window and the schedule computed in the rounds leaves the
same Words in `H` as the schedule, the rounds and the feed-forward in sequence. -/
def Obligations.FusedEngineEqualsCompress : Prop :=
  ∀ (h : Words8) (b : Block), fusedCompress h b = compress h b

/-! ## Runs of micro-operations -/

/-- 41 R132, R133: from `(LOAD, 0)`, with no reset in the next 64 steps, the 64 steps of the expander leave
`W = Expand(BLK)`, whatever `W` held, and `seq = (WINIT, 0)`; nothing else changes (the port samples, the
model's own, are used up; log 3). -/
def Obligations.ExpanderStepsComputeExpand : Prop :=
  ∀ s : State, s.seq = ⟨.load, 0⟩ → NoReset 64 s →
    run 64 s = .next { s with
      W := expand s.BLK, seq := ⟨.winit, 0⟩, inputs := s.inputs.drop 64 }

/-- 42 R143: from `(WINIT, 0)`, with no reset in the next 65 steps, `U_WINIT` and the 64 rounds leave
`r = Rounds(H, W)` and `seq = (FEED, 0)`; nothing else changes (the port samples, the model's own, are used
up; log 3). -/
def Obligations.RoundStepsComputeRounds : Prop :=
  ∀ s : State, s.seq = ⟨.winit, 0⟩ → NoReset 65 s →
    run 65 s = .next { s with
      r := rounds s.H s.W, seq := ⟨.feed, 0⟩, inputs := s.inputs.drop 65 }

/-- 44 R167: the fixed path. From `(LOAD, 0)`, with no reset, the sequencer after `n` steps of the 130. That
no reset comes is read from the model's port list (log 3). -/
def Obligations.SequencerFollowsTheFixedPath : Prop :=
  ∀ (s : State) (n : Nat), s.seq = ⟨.load, 0⟩ → NoReset n s → n ≤ Config.uopsPerBlock →
    ∃ s', run n s = .next s' ∧
      (n < 16 → s'.seq.phase = .load ∧ s'.seq.t.val = n) ∧
      (16 ≤ n → n < 64 → s'.seq.phase = .expand ∧ s'.seq.t.val = n) ∧
      (n = 64 → s'.seq = ⟨.winit, 0⟩) ∧
      (65 ≤ n → n < 129 → s'.seq.phase = .round ∧ s'.seq.t.val = n - 65) ∧
      (n = 129 → s'.seq = ⟨.feed, 0⟩) ∧
      (n = 130 → s'.seq = ⟨.idle, 0⟩)

/-- 44 R168, R163, R164; 43 R153: in `IDLE` with `hs = ACTIVE`, a transferred `BLOCK` or `BLOCK_LAST` and no
reset in the 131 steps: the core is then in `IDLE` again with `H = Compress(H, B)`, `hs` `ACTIVE` or `DONE`,
`last_q = 0`, `err` and `err_code` unchanged; and at every moment between, the host sees `cmd_ready = 0`,
`digest_valid = 0` and the same `err`. The clauses about `inputs` and `draws` are about the model's own fields
(logs 3 and 2). -/
def Obligations.WholeBlockCompresses : Prop :=
  ∀ (s : State) (last : Bool), s.hs = .active → NoReset 131 s →
    Transfer s (if last then 0b11#2 else 0b10#2) →
    (∃ s', run (Config.uopsPerBlock + 1) s = .next s' ∧
      s'.H = compress s.H (blockWords s.portsNow.block) ∧
      s'.hs = (if last then .done else .active) ∧ s'.seq = ⟨.idle, 0⟩ ∧ s'.lastQ = false ∧
      s'.err = s.err ∧ s'.errCode = s.errCode ∧ s'.inputs = s.inputs.drop 131 ∧ s'.draws = s.draws) ∧
    (∀ n, 0 < n → n ≤ Config.uopsPerBlock → ∃ m, run n s = .next m ∧ m.outputs.cmdReady = false ∧
      m.outputs.digestValid = false ∧ m.outputs.err = s.outputs.err ∧
      m.outputs.errCode = s.outputs.errCode ∧ m.H = s.H)

/-- 44 R169, 70 R244: from every state with the invariant of R35, without the host's help, `IDLE` is reached
within 130 steps, unless a reset (which reaches it at once) is in effect before. That
no reset comes is read from the model's port list (log 3). -/
def Obligations.IdleIsReachedWithoutTheHost : Prop :=
  ∀ s : State, ControlInv s → NoReset Config.uopsPerBlock s →
    ∃ n s', n ≤ Config.uopsPerBlock ∧ run n s = .next s' ∧ s'.outputs.cmdReady = true

/-! ## Reset (70) -/

/-- 70 R230, R231; 60 R208 (a): a step at which reset is in effect, in any phase and whatever the command
ports show: the control state takes the reset values, so `cmd_ready = 1`, `digest_valid = 0`, `err = 0`; no
transfer happens and no micro-operation fires. Nothing is said of `H`, `r`, `W`, `BLK`, which take free
values (log 2). That the digest port, which the spec calls unspecified here, is `none` follows 10 R32, "a model
gives it no value" (log 4); that one port sample is used up is the model's own (log 3). -/
def Obligations.ResetWinsOverEverything : Prop :=
  ∀ s : State, s.portsNow.rst = true → ∃ s', step s = .next s' ∧
    s'.seq = ⟨.idle, 0⟩ ∧ s'.hs = .empty ∧ s'.lastQ = false ∧ s'.err = false ∧ s'.errCode = .none ∧
    s'.outputs.cmdReady = true ∧ s'.outputs.digestValid = false ∧ s'.outputs.digest = none ∧
    s'.outputs.err = false ∧ s'.outputs.errCode = 0#2 ∧ s'.inputs = s.inputs.tail

/-- 10 R34, 70 R232: the control state and the outputs right after reset, with nothing said of the data
state, whose values there are the model's choice (log 1). The digest port is unspecified there; that it is `none`
follows 10 R32, "a model gives it no value" (log 4). -/
def Obligations.ResetStateHasTheSpecsValues : Prop :=
  State.reset.hs = .empty ∧ State.reset.seq = ⟨.idle, 0⟩ ∧ State.reset.lastQ = false ∧
  State.reset.err = false ∧ State.reset.errCode = .none ∧
  State.reset.outputs = ⟨true, false, none, false, 0#2⟩

/-! ## Invariants (10 R35) and whole-machine rules -/

/-- 10 R35: the three invariants hold right after reset. -/
def Obligations.InvariantsHoldAtReset : Prop :=
  ControlInv State.reset ∧ ErrorInv State.reset ∧ DataInv State.reset

/-- 10 R35 (a) to (d), 60 R203: every step keeps the control invariant, and from a state that has it the
machine never stops (44 R169, 60 R200). -/
def Obligations.EveryStepKeepsTheControlInvariant : Prop :=
  ∀ s : State, ControlInv s → ∃ s', step s = .next s' ∧ ControlInv s'

/-- 95 section 3, strengthening 10 R35 (d): every step keeps: `err = 1` only in `EMPTY` with `err_code = 1`
or in `DONE` with `err_code = 2`. -/
def Obligations.EveryStepKeepsTheErrorInvariant : Prop :=
  ∀ s s' : State, ControlInv s → ErrorInv s → step s = .next s' → ErrorInv s'

/-- 10 R35 (f), 41 R133, 42 R143: every step keeps: what the coming micro-operations of the block read is what
the earlier ones wrote, the prefix of `Expand(BLK)` and the registers after `t` rounds. -/
def Obligations.EveryStepKeepsTheDataInvariant : Prop :=
  ∀ s s' : State, DataInv s → step s = .next s' → DataInv s'

/-- 10 R35 (e), (f), R36, R38; 20 R72; 43 R156: no step reads a Word that nothing has written since reset or
in this block. Two states that agree on everything else show the same outputs and step to two states that
agree again, whatever the unwritten and the stale Words are; so no earlier computation is observed. -/
def Obligations.NoStaleWordIsEverRead : Prop :=
  ∀ s s' : State, Agree s s' → ControlInv s →
    s.outputs = s'.outputs ∧ ∀ t, step s = .next t → ∃ t', step s' = .next t' ∧ Agree t t'

/-- 40 R122 (e), 41 R134 (c), 42 R144 (c): no data-dependent control. Two states with the same control state
and the same coming commands step to two such states, whatever the data state and the block operands. -/
def Obligations.ControlDoesNotDependOnData : Prop :=
  ∀ s s' t : State, SameControl s s' → step s = .next t → ∃ t', step s' = .next t' ∧ SameControl t t'

/-- 60 R206, 10 R29: `err` returns to 0 only at an accepted `INIT` or at a reset, and while it is 1 no other
step changes `err_code`. -/
def Obligations.OnlyInitAndResetClearTheError : Prop :=
  ∀ s s' : State, step s = .next s' → s.err = true → s.portsNow.rst = false → ¬ Transfer s 0b01#2 →
    s'.err = true ∧ s'.errCode = s.errCode

/-- 60 R200, R201: `err` rises only at the transfer of a `BLOCK` or `BLOCK_LAST` in `EMPTY` or `DONE`, with
the cause that session state gives. -/
def Obligations.OnlyARefusedBlockRaisesTheError : Prop :=
  ∀ s s' : State, step s = .next s' → s.err = false → s'.err = true →
    (Transfer s 0b10#2 ∨ Transfer s 0b11#2) ∧
    ((s.hs = .empty ∧ s'.errCode = .noInit) ∨ (s.hs = .done ∧ s'.errCode = .terminal))

/-- 10 R33, R21 to R28: the columns of the access matrix. A step at which no reset is in effect changes `H`
only at an `INIT` or in `FEED`, `r` only in `WINIT` and `ROUND`, `W` only in `LOAD` and `EXPAND` and there
only at `t`, `BLK` only at the transfer of a block command in `ACTIVE`, `last_q` only there and in `FEED`. -/
def Obligations.AccessMatrixOfWriters : Prop :=
  ∀ s s' : State, step s = .next s' → s.portsNow.rst = false →
    (s'.H ≠ s.H → Transfer s 0b01#2 ∨ s.seq.phase = .feed) ∧
    (s'.r ≠ s.r → s.seq.phase = .winit ∨ s.seq.phase = .round) ∧
    (∀ u : Index, s'.W[u] ≠ s.W[u] → (s.seq.phase = .load ∨ s.seq.phase = .expand) ∧ u = s.seq.t) ∧
    (s'.BLK ≠ s.BLK → (Transfer s 0b10#2 ∨ Transfer s 0b11#2) ∧ s.hs = .active) ∧
    (s'.lastQ ≠ s.lastQ →
      ((Transfer s 0b10#2 ∨ Transfer s 0b11#2) ∧ s.hs = .active) ∨ s.seq.phase = .feed)

/-! ## The host's contract (45) and the whole computation -/

/-- 45 R182 to R184: the padded string is the message, one byte `0x80`, `(55 - N) mod 64` zero bytes (the
least number that reaches 56 modulo 64) and eight bytes; its length is 64 times the block count, which is
`ceil((8N + 65) / 512)`; and block `k` carries piece `k` of it, byte for byte. It is
stated for every list of bytes: of one beyond `messageLimit`, which the spec does not admit (R181), it says what the
model chose (log 13). -/
def Obligations.PaddingFillsWholeBlocks : Prop :=
  ∀ m : List Byte,
    (∃ tail : List Byte, tail.length = 8 ∧
      pad m = m ++ [0x80#8] ++ List.replicate (zeroBytes m.length) 0#8 ++ tail) ∧
    (m.length + 1 + zeroBytes m.length) % 64 = 56 ∧
    (∀ z, (m.length + 1 + z) % 64 = 56 → zeroBytes m.length ≤ z) ∧
    (pad m).length = 64 * blockCount m.length ∧
    blockCount m.length = (8 * m.length + 1 + 64 + 511) / 512 ∧
    (messageBlocks m).length = blockCount m.length ∧
    (∀ k, k < blockCount m.length → ∃ b, (messageBlocks m)[k]? = some b ∧ b = messageBlock m k ∧
      ∀ j : Fin 64, (pad m)[64 * k + j.val]? = some (blockByte b j))

/-- 45 R183, 20 R64: `Block[14]` and `Block[15]` of the last block are the upper and the lower half of the
64-bit bit length, for every message the spec admits (R181). -/
def Obligations.LastBlockCarriesTheBitLength : Prop :=
  ∀ m : List Byte, m.length ≤ messageLimit →
    let b := blockWords (messageBlock m (blockCount m.length - 1))
    b[14].toNat * 2 ^ 32 + b[15].toNat = 8 * m.length

/-- 45 R188, R187; 00 R14; 44 R168; 43 R154: from every state in `IDLE`, whatever an earlier computation left
there, a host that runs `HASH m` samples the digest of `m`, `Digest` of its padded blocks, with `err = 0`. The host that runs it is the model's
driver (log 12), its script shows zero on the `block` port during the `INIT` (log 15), and the number of its steps
counts micro-operations and transfers (log 6). -/
def Obligations.HashScriptReadsTheDigest : Prop :=
  ∀ (s : State) (m : List Byte), s.seq = ⟨.idle, 0⟩ → m.length ≤ messageLimit →
    ∃ s', HostRun.hostSteps (2 + 131 * blockCount m.length) ⟨s, hashScript m, []⟩ =
        .next ⟨s', [], [.digest (digestPort (computeDigest m))]⟩ ∧
      s'.hs = .done ∧ s'.H = computeDigest m ∧ s'.err = false ∧ s'.seq = ⟨.idle, 0⟩

/-- 30 R91, 70 R237, R244; U13: a command a host offers at a step with `cmd_ready = 1` is transferred there: the
core makes the effect of exactly that command, and the host goes on. With `cmd_ready = 0` it is "neither taken
nor lost": the core makes the step it makes with nothing on the ports, and the command is still to do. A host that
waits for a digest in `IDLE` while `digest_valid = 0` waits for ever, and the core keeps its state. The host is the
model's driver (log 12), and the list of port samples the model's own (log 3). -/
def Obligations.HostWaitsForTheCore : Prop :=
  (∀ (h : HostRun) (code : BitVec 2) (b : BitVec 512) (rest : List HostAction),
    h.todo = .command code b :: rest → h.core.outputs.cmdReady = true →
    ∃ s, exec (decodeCmd code b) { h.core with inputs := [] } = .next s ∧
      h.hostStep = .next ⟨s, rest, h.reads⟩) ∧
  (∀ (h h' : HostRun) (code : BitVec 2) (b : BitVec 512) (rest : List HostAction),
    h.todo = .command code b :: rest → h.core.outputs.cmdReady = false →
    (h.hostStep = .next h' ↔
      step (h.core.present PortIn.quiet) = .next h'.core ∧ h'.todo = h.todo ∧ h'.reads = h.reads)) ∧
  (∀ (n : Nat) (s : State) (rest : List HostAction) (reads : List HostRead),
    s.seq.phase = .idle → s.hs ≠ .done → s.inputs = [] →
    HostRun.hostSteps n ⟨s, .rdDigest :: rest, reads⟩ = .next ⟨s, .rdDigest :: rest, reads⟩)

/-- 45 R187 (1) to (5), R188: from every state in `IDLE`, a host whose actions are the order of work of the
message `m`, with `NOP`s inserted anywhere and nothing else issued, whatever the `block` port shows while a `NOP` or
the `INIT` is transferred, samples the digest of `m` and then `err = 0`
with `err_code = 0`: one step for each action and 130 for each block. The host is the model's driver (log 12), and
the number of its steps counts micro-operations and transfers (log 6). -/
def Obligations.OrderOfWorkReadsTheDigestAndNoError : Prop :=
  ∀ (s : State) (m : List Byte) (todo : List HostAction), s.seq = ⟨.idle, 0⟩ → m.length ≤ messageLimit →
    HostAction.doWork m todo = true →
    ∃ s', HostRun.hostSteps (todo.length + Config.uopsPerBlock * blockCount m.length) ⟨s, todo, []⟩ =
        .next ⟨s', [], [.digest (digestPort (computeDigest m)), .err false 0#2]⟩ ∧
      s'.hs = .done ∧ s'.H = computeDigest m ∧ s'.err = false ∧ s'.seq = ⟨.idle, 0⟩
end

