-- ==== Sys2Proof/Laws/State.lean ====
section
/-! SUPPORT. The state's small lemmas: what each update leaves in each field. Those of a plain record update
are true by rfl; `advance`, `raiseSeqError` and `acceptBlock` have one lemma per field they cannot touch. -/

namespace Sys2Proof.Machine

variable (s : State)

/-! ## `writeW` -/

@[simp] theorem State.writeW_H (t : Index) (v : Word) : (s.writeW t v).H = s.H := rfl
@[simp] theorem State.writeW_r (t : Index) (v : Word) : (s.writeW t v).r = s.r := rfl
@[simp] theorem State.writeW_W (t : Index) (v : Word) : (s.writeW t v).W = s.W.set t v := rfl
@[simp] theorem State.writeW_BLK (t : Index) (v : Word) : (s.writeW t v).BLK = s.BLK := rfl
@[simp] theorem State.writeW_hs (t : Index) (v : Word) : (s.writeW t v).hs = s.hs := rfl
@[simp] theorem State.writeW_seq (t : Index) (v : Word) : (s.writeW t v).seq = s.seq := rfl
@[simp] theorem State.writeW_lastQ (t : Index) (v : Word) : (s.writeW t v).lastQ = s.lastQ := rfl
@[simp] theorem State.writeW_err (t : Index) (v : Word) : (s.writeW t v).err = s.err := rfl
@[simp] theorem State.writeW_errCode (t : Index) (v : Word) : (s.writeW t v).errCode = s.errCode := rfl
@[simp] theorem State.writeW_inputs (t : Index) (v : Word) : (s.writeW t v).inputs = s.inputs := rfl
@[simp] theorem State.writeW_draws (t : Index) (v : Word) : (s.writeW t v).draws = s.draws := rfl

/-! ## `writeWork` -/

@[simp] theorem State.writeWork_H (v : Words8) : (s.writeWork v).H = s.H := rfl
@[simp] theorem State.writeWork_r (v : Words8) : (s.writeWork v).r = v := rfl
@[simp] theorem State.writeWork_W (v : Words8) : (s.writeWork v).W = s.W := rfl
@[simp] theorem State.writeWork_BLK (v : Words8) : (s.writeWork v).BLK = s.BLK := rfl
@[simp] theorem State.writeWork_hs (v : Words8) : (s.writeWork v).hs = s.hs := rfl
@[simp] theorem State.writeWork_seq (v : Words8) : (s.writeWork v).seq = s.seq := rfl
@[simp] theorem State.writeWork_lastQ (v : Words8) : (s.writeWork v).lastQ = s.lastQ := rfl
@[simp] theorem State.writeWork_err (v : Words8) : (s.writeWork v).err = s.err := rfl
@[simp] theorem State.writeWork_errCode (v : Words8) : (s.writeWork v).errCode = s.errCode := rfl
@[simp] theorem State.writeWork_inputs (v : Words8) : (s.writeWork v).inputs = s.inputs := rfl
@[simp] theorem State.writeWork_draws (v : Words8) : (s.writeWork v).draws = s.draws := rfl

/-! ## `writeHash` -/

@[simp] theorem State.writeHash_H (v : Words8) : (s.writeHash v).H = v := rfl
@[simp] theorem State.writeHash_r (v : Words8) : (s.writeHash v).r = s.r := rfl
@[simp] theorem State.writeHash_W (v : Words8) : (s.writeHash v).W = s.W := rfl
@[simp] theorem State.writeHash_BLK (v : Words8) : (s.writeHash v).BLK = s.BLK := rfl
@[simp] theorem State.writeHash_hs (v : Words8) : (s.writeHash v).hs = s.hs := rfl
@[simp] theorem State.writeHash_seq (v : Words8) : (s.writeHash v).seq = s.seq := rfl
@[simp] theorem State.writeHash_lastQ (v : Words8) : (s.writeHash v).lastQ = s.lastQ := rfl
@[simp] theorem State.writeHash_err (v : Words8) : (s.writeHash v).err = s.err := rfl
@[simp] theorem State.writeHash_errCode (v : Words8) : (s.writeHash v).errCode = s.errCode := rfl
@[simp] theorem State.writeHash_inputs (v : Words8) : (s.writeHash v).inputs = s.inputs := rfl
@[simp] theorem State.writeHash_draws (v : Words8) : (s.writeHash v).draws = s.draws := rfl

/-! ## `latchBlock` -/

@[simp] theorem State.latchBlock_H (b : BitVec 512) (last : Bool) : (s.latchBlock b last).H = s.H := rfl
@[simp] theorem State.latchBlock_r (b : BitVec 512) (last : Bool) : (s.latchBlock b last).r = s.r := rfl
@[simp] theorem State.latchBlock_W (b : BitVec 512) (last : Bool) : (s.latchBlock b last).W = s.W := rfl
@[simp] theorem State.latchBlock_BLK (b : BitVec 512) (last : Bool) : (s.latchBlock b last).BLK = blockWords b := rfl
@[simp] theorem State.latchBlock_hs (b : BitVec 512) (last : Bool) : (s.latchBlock b last).hs = s.hs := rfl
@[simp] theorem State.latchBlock_seq (b : BitVec 512) (last : Bool) : (s.latchBlock b last).seq = s.seq := rfl
@[simp] theorem State.latchBlock_lastQ (b : BitVec 512) (last : Bool) : (s.latchBlock b last).lastQ = last := rfl
@[simp] theorem State.latchBlock_err (b : BitVec 512) (last : Bool) : (s.latchBlock b last).err = s.err := rfl
@[simp] theorem State.latchBlock_errCode (b : BitVec 512) (last : Bool) : (s.latchBlock b last).errCode = s.errCode := rfl
@[simp] theorem State.latchBlock_inputs (b : BitVec 512) (last : Bool) : (s.latchBlock b last).inputs = s.inputs := rfl
@[simp] theorem State.latchBlock_draws (b : BitVec 512) (last : Bool) : (s.latchBlock b last).draws = s.draws := rfl

/-! ## `goto` -/

@[simp] theorem State.goto_H (p : Phase) (n : Index) : (s.goto p n).H = s.H := rfl
@[simp] theorem State.goto_r (p : Phase) (n : Index) : (s.goto p n).r = s.r := rfl
@[simp] theorem State.goto_W (p : Phase) (n : Index) : (s.goto p n).W = s.W := rfl
@[simp] theorem State.goto_BLK (p : Phase) (n : Index) : (s.goto p n).BLK = s.BLK := rfl
@[simp] theorem State.goto_hs (p : Phase) (n : Index) : (s.goto p n).hs = s.hs := rfl
@[simp] theorem State.goto_seq (p : Phase) (n : Index) : (s.goto p n).seq = ⟨p, n⟩ := rfl
@[simp] theorem State.goto_lastQ (p : Phase) (n : Index) : (s.goto p n).lastQ = s.lastQ := rfl
@[simp] theorem State.goto_err (p : Phase) (n : Index) : (s.goto p n).err = s.err := rfl
@[simp] theorem State.goto_errCode (p : Phase) (n : Index) : (s.goto p n).errCode = s.errCode := rfl
@[simp] theorem State.goto_inputs (p : Phase) (n : Index) : (s.goto p n).inputs = s.inputs := rfl
@[simp] theorem State.goto_draws (p : Phase) (n : Index) : (s.goto p n).draws = s.draws := rfl

/-! ## `setSession` -/

@[simp] theorem State.setSession_H (v : Session) : (s.setSession v).H = s.H := rfl
@[simp] theorem State.setSession_r (v : Session) : (s.setSession v).r = s.r := rfl
@[simp] theorem State.setSession_W (v : Session) : (s.setSession v).W = s.W := rfl
@[simp] theorem State.setSession_BLK (v : Session) : (s.setSession v).BLK = s.BLK := rfl
@[simp] theorem State.setSession_hs (v : Session) : (s.setSession v).hs = v := rfl
@[simp] theorem State.setSession_seq (v : Session) : (s.setSession v).seq = s.seq := rfl
@[simp] theorem State.setSession_lastQ (v : Session) : (s.setSession v).lastQ = s.lastQ := rfl
@[simp] theorem State.setSession_err (v : Session) : (s.setSession v).err = s.err := rfl
@[simp] theorem State.setSession_errCode (v : Session) : (s.setSession v).errCode = s.errCode := rfl
@[simp] theorem State.setSession_inputs (v : Session) : (s.setSession v).inputs = s.inputs := rfl
@[simp] theorem State.setSession_draws (v : Session) : (s.setSession v).draws = s.draws := rfl

/-! ## `clearLast` -/

@[simp] theorem State.clearLast_H : (s.clearLast).H = s.H := rfl
@[simp] theorem State.clearLast_r : (s.clearLast).r = s.r := rfl
@[simp] theorem State.clearLast_W : (s.clearLast).W = s.W := rfl
@[simp] theorem State.clearLast_BLK : (s.clearLast).BLK = s.BLK := rfl
@[simp] theorem State.clearLast_hs : (s.clearLast).hs = s.hs := rfl
@[simp] theorem State.clearLast_seq : (s.clearLast).seq = s.seq := rfl
@[simp] theorem State.clearLast_lastQ : (s.clearLast).lastQ = false := rfl
@[simp] theorem State.clearLast_err : (s.clearLast).err = s.err := rfl
@[simp] theorem State.clearLast_errCode : (s.clearLast).errCode = s.errCode := rfl
@[simp] theorem State.clearLast_inputs : (s.clearLast).inputs = s.inputs := rfl
@[simp] theorem State.clearLast_draws : (s.clearLast).draws = s.draws := rfl

/-! ## `loadIV` -/

@[simp] theorem State.loadIV_H : (s.loadIV).H = initialHash := rfl
@[simp] theorem State.loadIV_r : (s.loadIV).r = s.r := rfl
@[simp] theorem State.loadIV_W : (s.loadIV).W = s.W := rfl
@[simp] theorem State.loadIV_BLK : (s.loadIV).BLK = s.BLK := rfl
@[simp] theorem State.loadIV_hs : (s.loadIV).hs = s.hs := rfl
@[simp] theorem State.loadIV_seq : (s.loadIV).seq = s.seq := rfl
@[simp] theorem State.loadIV_lastQ : (s.loadIV).lastQ = s.lastQ := rfl
@[simp] theorem State.loadIV_err : (s.loadIV).err = s.err := rfl
@[simp] theorem State.loadIV_errCode : (s.loadIV).errCode = s.errCode := rfl
@[simp] theorem State.loadIV_inputs : (s.loadIV).inputs = s.inputs := rfl
@[simp] theorem State.loadIV_draws : (s.loadIV).draws = s.draws := rfl

/-! ## `clearError` -/

@[simp] theorem State.clearError_H : (s.clearError).H = s.H := rfl
@[simp] theorem State.clearError_r : (s.clearError).r = s.r := rfl
@[simp] theorem State.clearError_W : (s.clearError).W = s.W := rfl
@[simp] theorem State.clearError_BLK : (s.clearError).BLK = s.BLK := rfl
@[simp] theorem State.clearError_hs : (s.clearError).hs = s.hs := rfl
@[simp] theorem State.clearError_seq : (s.clearError).seq = s.seq := rfl
@[simp] theorem State.clearError_lastQ : (s.clearError).lastQ = s.lastQ := rfl
@[simp] theorem State.clearError_err : (s.clearError).err = false := rfl
@[simp] theorem State.clearError_errCode : (s.clearError).errCode = .none := rfl
@[simp] theorem State.clearError_inputs : (s.clearError).inputs = s.inputs := rfl
@[simp] theorem State.clearError_draws : (s.clearError).draws = s.draws := rfl

/-! ## `afterPorts` -/

@[simp] theorem State.afterPorts_H : (s.afterPorts).H = s.H := rfl
@[simp] theorem State.afterPorts_r : (s.afterPorts).r = s.r := rfl
@[simp] theorem State.afterPorts_W : (s.afterPorts).W = s.W := rfl
@[simp] theorem State.afterPorts_BLK : (s.afterPorts).BLK = s.BLK := rfl
@[simp] theorem State.afterPorts_hs : (s.afterPorts).hs = s.hs := rfl
@[simp] theorem State.afterPorts_seq : (s.afterPorts).seq = s.seq := rfl
@[simp] theorem State.afterPorts_lastQ : (s.afterPorts).lastQ = s.lastQ := rfl
@[simp] theorem State.afterPorts_err : (s.afterPorts).err = s.err := rfl
@[simp] theorem State.afterPorts_errCode : (s.afterPorts).errCode = s.errCode := rfl
@[simp] theorem State.afterPorts_inputs : (s.afterPorts).inputs = s.inputs.tail := rfl
@[simp] theorem State.afterPorts_draws : (s.afterPorts).draws = s.draws := rfl

/-! ## `resetEdge` -/

@[simp] theorem State.resetEdge_H : s.resetEdge.H = Config.hashAfterReset s.draws s.H := rfl
@[simp] theorem State.resetEdge_r : s.resetEdge.r = Config.workAfterReset s.draws s.r := rfl
@[simp] theorem State.resetEdge_W : s.resetEdge.W = Config.scheduleAfterReset s.draws s.W := rfl
@[simp] theorem State.resetEdge_BLK : s.resetEdge.BLK = Config.blockAfterReset s.draws s.BLK := rfl
@[simp] theorem State.resetEdge_hs : s.resetEdge.hs = .empty := rfl
@[simp] theorem State.resetEdge_seq : s.resetEdge.seq = ⟨.idle, 0⟩ := rfl
@[simp] theorem State.resetEdge_lastQ : s.resetEdge.lastQ = false := rfl
@[simp] theorem State.resetEdge_err : s.resetEdge.err = false := rfl
@[simp] theorem State.resetEdge_errCode : s.resetEdge.errCode = .none := rfl
@[simp] theorem State.resetEdge_inputs : s.resetEdge.inputs = s.inputs := rfl
@[simp] theorem State.resetEdge_draws : s.resetEdge.draws = s.draws + 1 := rfl

/-! ## `advance` -/

@[simp] theorem State.advance_H (p : Phase) (t last : Index) (q : Phase) (n : Index) : (s.advance p t last q n).H = s.H := by
  unfold State.advance; split <;> rfl
@[simp] theorem State.advance_r (p : Phase) (t last : Index) (q : Phase) (n : Index) : (s.advance p t last q n).r = s.r := by
  unfold State.advance; split <;> rfl
@[simp] theorem State.advance_W (p : Phase) (t last : Index) (q : Phase) (n : Index) : (s.advance p t last q n).W = s.W := by
  unfold State.advance; split <;> rfl
@[simp] theorem State.advance_BLK (p : Phase) (t last : Index) (q : Phase) (n : Index) : (s.advance p t last q n).BLK = s.BLK := by
  unfold State.advance; split <;> rfl
@[simp] theorem State.advance_hs (p : Phase) (t last : Index) (q : Phase) (n : Index) : (s.advance p t last q n).hs = s.hs := by
  unfold State.advance; split <;> rfl
theorem State.advance_seq (p : Phase) (t last : Index) (q : Phase) (n : Index) :
    (s.advance p t last q n).seq = if t = last then ⟨q, n⟩ else ⟨p, t + 1⟩ := by
  unfold State.advance; split <;> rfl
@[simp] theorem State.advance_lastQ (p : Phase) (t last : Index) (q : Phase) (n : Index) : (s.advance p t last q n).lastQ = s.lastQ := by
  unfold State.advance; split <;> rfl
@[simp] theorem State.advance_err (p : Phase) (t last : Index) (q : Phase) (n : Index) : (s.advance p t last q n).err = s.err := by
  unfold State.advance; split <;> rfl
@[simp] theorem State.advance_errCode (p : Phase) (t last : Index) (q : Phase) (n : Index) : (s.advance p t last q n).errCode = s.errCode := by
  unfold State.advance; split <;> rfl
@[simp] theorem State.advance_inputs (p : Phase) (t last : Index) (q : Phase) (n : Index) : (s.advance p t last q n).inputs = s.inputs := by
  unfold State.advance; split <;> rfl
@[simp] theorem State.advance_draws (p : Phase) (t last : Index) (q : Phase) (n : Index) : (s.advance p t last q n).draws = s.draws := by
  unfold State.advance; split <;> rfl

/-! ## `raiseSeqError` (60 R204) -/

@[simp] theorem State.raiseSeqError_H (c : ErrCode) : (s.raiseSeqError c).H = s.H := by
  unfold State.raiseSeqError; split <;> rfl
@[simp] theorem State.raiseSeqError_r (c : ErrCode) : (s.raiseSeqError c).r = s.r := by
  unfold State.raiseSeqError; split <;> rfl
@[simp] theorem State.raiseSeqError_W (c : ErrCode) : (s.raiseSeqError c).W = s.W := by
  unfold State.raiseSeqError; split <;> rfl
@[simp] theorem State.raiseSeqError_BLK (c : ErrCode) : (s.raiseSeqError c).BLK = s.BLK := by
  unfold State.raiseSeqError; split <;> rfl
@[simp] theorem State.raiseSeqError_hs (c : ErrCode) : (s.raiseSeqError c).hs = s.hs := by
  unfold State.raiseSeqError; split <;> rfl
@[simp] theorem State.raiseSeqError_seq (c : ErrCode) : (s.raiseSeqError c).seq = s.seq := by
  unfold State.raiseSeqError; split <;> rfl
@[simp] theorem State.raiseSeqError_lastQ (c : ErrCode) : (s.raiseSeqError c).lastQ = s.lastQ := by
  unfold State.raiseSeqError; split <;> rfl
@[simp] theorem State.raiseSeqError_err (c : ErrCode) : (s.raiseSeqError c).err = true := by
  unfold State.raiseSeqError; split <;> simp_all
theorem State.raiseSeqError_errCode (c : ErrCode) :
    (s.raiseSeqError c).errCode = if s.err then s.errCode else c := by
  unfold State.raiseSeqError; split <;> rfl
@[simp] theorem State.raiseSeqError_inputs (c : ErrCode) : (s.raiseSeqError c).inputs = s.inputs := by
  unfold State.raiseSeqError; split <;> rfl
@[simp] theorem State.raiseSeqError_draws (c : ErrCode) : (s.raiseSeqError c).draws = s.draws := by
  unfold State.raiseSeqError; split <;> rfl

/-! ## `acceptBlock` (44 R163, R164) -/

@[simp] theorem acceptBlock_H (last : Bool) (b : BitVec 512) : (acceptBlock last b s).H = s.H := by
  unfold acceptBlock; split <;> simp
@[simp] theorem acceptBlock_r (last : Bool) (b : BitVec 512) : (acceptBlock last b s).r = s.r := by
  unfold acceptBlock; split <;> simp
@[simp] theorem acceptBlock_W (last : Bool) (b : BitVec 512) : (acceptBlock last b s).W = s.W := by
  unfold acceptBlock; split <;> simp
@[simp] theorem acceptBlock_hs (last : Bool) (b : BitVec 512) : (acceptBlock last b s).hs = s.hs := by
  unfold acceptBlock; split <;> simp
@[simp] theorem acceptBlock_inputs (last : Bool) (b : BitVec 512) : (acceptBlock last b s).inputs = s.inputs := by
  unfold acceptBlock; split <;> simp
@[simp] theorem acceptBlock_draws (last : Bool) (b : BitVec 512) : (acceptBlock last b s).draws = s.draws := by
  unfold acceptBlock; split <;> simp

variable {s} in
theorem acceptBlock_active (h : s.hs = .active) (last : Bool) (b : BitVec 512) :
    acceptBlock last b s = (s.latchBlock b last).goto .load 0 := by
  simp [acceptBlock, h]

variable {s} in
theorem acceptBlock_empty (h : s.hs = .empty) (last : Bool) (b : BitVec 512) :
    acceptBlock last b s = s.raiseSeqError .noInit := by
  simp [acceptBlock, h]

variable {s} in
theorem acceptBlock_done (h : s.hs = .done) (last : Bool) (b : BitVec 512) :
    acceptBlock last b s = s.raiseSeqError .terminal := by
  simp [acceptBlock, h]

/-! ## The input ports -/

@[simp] theorem State.portsNow_nil (h : s.inputs = []) : s.portsNow = PortIn.quiet := by
  simp [State.portsNow, h]

@[simp] theorem State.portsNow_cons {p : PortIn} {ps : List PortIn} (h : s.inputs = p :: ps) :
    s.portsNow = p := by
  simp [State.portsNow, h]

@[simp] theorem PortIn.quiet_rst : PortIn.quiet.rst = false := rfl
@[simp] theorem PortIn.quiet_cmdValid : PortIn.quiet.cmdValid = false := rfl

/-! ## Status -/

theorem State.cmdReady_iff : s.cmdReady = true ↔ s.seq.phase = .idle := by simp [State.cmdReady]

theorem State.digestValid_iff : s.digestValid = true ↔ s.hs = .done := by simp [State.digestValid]

end Sys2Proof.Machine
end

