-- ==== Sys2Proof/Laws/Exec.lean ====
section
/-! SUPPORT. What each meaning answers: one equation per instruction, cited instead of unfolding `exec`. -/

namespace Sys2Proof.Machine

theorem exec_nop (s : State) : exec .nop s = .next s := rfl

theorem exec_init (s : State) :
    exec .init s = .next ((s.loadIV.setSession .active).clearError) := rfl

theorem exec_block (b : BitVec 512) (s : State) : exec (.block b) s = .next (acceptBlock false b s) := rfl

theorem exec_blockLast (b : BitVec 512) (s : State) :
    exec (.blockLast b) s = .next (acceptBlock true b s) := rfl

theorem exec_uWload {t : Index} (h : t.val ≤ 15) (s : State) :
    exec (.uWload t) s = .next ((s.writeW t (s.readBLK (blockIndex t))).advance .load t 15 .expand 16) := by
  simp [exec, execUWload, legalLoad, h]

theorem exec_uWexp {t : Index} (h : 16 ≤ t.val) (s : State) :
    exec (.uWexp t) s = .next ((s.writeW t (expandedWord s.W t)).advance .expand t 63 .winit 0) := by
  simp [exec, execUWexp, legalExpand, h]

theorem exec_uWinit (s : State) : exec (.uWinit 0) s = .next ((s.writeWork s.H).goto .round 0) := by
  simp [exec, execUWinit, legalZero]

theorem exec_uRound (t : Index) (s : State) :
    exec (.uRound t) s =
      .next ((s.writeWork (roundRegs s.r (readK t) (s.readW t))).advance .round t 63 .feed 0) := rfl

theorem exec_uFeed (s : State) :
    exec (.uFeed 0) s =
      .next ((((s.writeHash (feedForward s.H s.r)).setSession (sessionAfterFeed s)).clearLast).goto .idle 0) := by
  simp [exec, execUFeed, legalZero]

/-- If `U_WLOAD` answers a next state, its index was legal and the state is the one R130 gives. -/
theorem exec_uWload_next {t : Index} {s s' : State} (h : exec (.uWload t) s = .next s') :
    t.val ≤ 15 ∧ s' = (s.writeW t (s.readBLK (blockIndex t))).advance .load t 15 .expand 16 := by
  by_cases hl : t.val ≤ 15
  · rw [exec_uWload hl] at h
    exact ⟨hl, (Host.Outcome.next.inj h).symm⟩
  · simp [exec, execUWload, legalLoad, hl] at h

/-- If `U_WEXP` answers a next state, its index was legal and the state is the one R131 gives. -/
theorem exec_uWexp_next {t : Index} {s s' : State} (h : exec (.uWexp t) s = .next s') :
    16 ≤ t.val ∧ s' = (s.writeW t (expandedWord s.W t)).advance .expand t 63 .winit 0 := by
  by_cases hl : 16 ≤ t.val
  · rw [exec_uWexp hl] at h
    exact ⟨hl, (Host.Outcome.next.inj h).symm⟩
  · simp [exec, execUWexp, legalExpand, hl] at h

/-- If `U_WINIT` answers a next state, its index was 0 and the state is the one R140 gives. -/
theorem exec_uWinit_next {t : Index} {s s' : State} (h : exec (.uWinit t) s = .next s') :
    t = 0 ∧ s' = (s.writeWork s.H).goto .round 0 := by
  by_cases hl : t = 0
  · subst hl
    rw [exec_uWinit] at h
    exact ⟨rfl, (Host.Outcome.next.inj h).symm⟩
  · have : t.val ≠ 0 := fun h0 => hl (Fin.ext h0)
    simp [exec, execUWinit, legalZero, this] at h

/-- If `U_FEED` answers a next state, its index was 0 and the state is the one R152 gives. -/
theorem exec_uFeed_next {t : Index} {s s' : State} (h : exec (.uFeed t) s = .next s') :
    t = 0 ∧ s' = (((s.writeHash (feedForward s.H s.r)).setSession (sessionAfterFeed s)).clearLast).goto .idle 0 := by
  by_cases hl : t = 0
  · subst hl
    rw [exec_uFeed] at h
    exact ⟨rfl, (Host.Outcome.next.inj h).symm⟩
  · have : t.val ≠ 0 := fun h0 => hl (Fin.ext h0)
    simp [exec, execUFeed, legalZero, this] at h

/-! ## The units and the arrays, as later proofs use them -/

@[simp] theorem add32_toNat (x y : Word) : (add32 x y).toNat = (x.toNat + y.toNat) % 2 ^ 32 :=
  BitVec.toNat_add x y

theorem feedForward_getElem (h r : Words8) (j : Nat) (hj : j < 8) :
    (feedForward h r)[j] = add32 h[j] r[j] := by
  interval_cases j <;> rfl

theorem blockIndex_val {t : Index} (h : t.val < 16) : (blockIndex t).val = t.val :=
  Nat.mod_eq_of_lt h

@[simp] theorem indexBack_val (t : Index) (k : Nat) : (indexBack t k).val = t.val - k := rfl

/-- The recurrence reads only entries below `t`. -/
theorem expandedWord_congr {w w' : Schedule} {t : Index} (ht : 16 ≤ t.val)
    (h : ∀ i : Index, i < t → w[i] = w'[i]) : expandedWord w t = expandedWord w' t := by
  have hb : ∀ k, 0 < k → k ≤ 16 → w[indexBack t k] = w'[indexBack t k] := fun k h0 h1 =>
    h _ (by rw [Fin.lt_def, indexBack_val]; omega)
  simp only [expandedWord, hb 2 (by omega) (by omega), hb 7 (by omega) (by omega),
    hb 15 (by omega) (by omega), hb 16 (by omega) (by omega)]

theorem scheduleEntry_congr {w w' : Schedule} (b : Block) {t : Index}
    (h : ∀ i : Index, i < t → w[i] = w'[i]) : scheduleEntry b w t = scheduleEntry b w' t := by
  unfold scheduleEntry
  split
  · rfl
  · exact expandedWord_congr (by omega) h

end Sys2Proof.Machine
end

