-- ==== Sys2Proof/Laws/Step.lean ====
section
/-! SUPPORT. Everything a step can do, said once: which word is selected, and the inversion of `step`. -/

namespace Sys2Proof.Machine

set_option Elab.async false

/-! ## Sequencer words decode to their micro-operation -/

@[simp] theorem seqIndex_seqWord (c : BitVec 3) (t : Index) : seqIndex (seqWord c t) = t := by
  apply Fin.ext
  simp only [seqIndex, seqWord, BitVec.extractLsb'_append_eq_right]
  show (BitVec.ofNat 6 t.val).toNat = t.val
  have := t.isLt
  simp only [BitVec.toNat_ofNat]
  omega

@[simp] theorem seqPhase_seqWord (c : BitVec 3) (t : Index) : seqPhase (seqWord c t) = c := by
  simp only [seqPhase, seqWord]
  exact BitVec.extractLsb'_append_eq_left

theorem decode_load (t : Index) : decode (.seq (Seq.word ⟨.load, t⟩)) = .ok (.uWload t) := by
  simp [decode, decodeSeq, Seq.word, Phase.code]

theorem decode_expand (t : Index) : decode (.seq (Seq.word ⟨.expand, t⟩)) = .ok (.uWexp t) := by
  simp [decode, decodeSeq, Seq.word, Phase.code]

theorem decode_winit (t : Index) : decode (.seq (Seq.word ⟨.winit, t⟩)) = .ok (.uWinit t) := by
  simp [decode, decodeSeq, Seq.word, Phase.code]

theorem decode_round (t : Index) : decode (.seq (Seq.word ⟨.round, t⟩)) = .ok (.uRound t) := by
  simp [decode, decodeSeq, Seq.word, Phase.code]

theorem decode_feed (t : Index) : decode (.seq (Seq.word ⟨.feed, t⟩)) = .ok (.uFeed t) := by
  simp [decode, decodeSeq, Seq.word, Phase.code]

/-! ## The step, case by case -/

variable {s s' : State}

theorem step_reset (h : s.portsNow.rst = true) : step s = .next s.afterPorts.resetEdge := by
  simp [step, h]

theorem step_wait (hr : s.portsNow.rst = false) (hp : s.seq.phase = .idle)
    (hv : s.portsNow.cmdValid = false) : step s = .next s.afterPorts := by
  simp [step, hr, State.select, State.cmdReady, hp, hv]

theorem step_transfer (hr : s.portsNow.rst = false) (hp : s.seq.phase = .idle)
    (hv : s.portsNow.cmdValid = true) :
    step s = exec (decodeCmd s.portsNow.cmd s.portsNow.block) s.afterPorts := by
  simp [step, hr, State.select, State.cmdReady, hp, hv, decode]

theorem step_busy (hr : s.portsNow.rst = false) (hp : s.seq.phase ≠ .idle) :
    step s = match decode (.seq s.seq.word) with
      | .ok i => exec i s.afterPorts
      | .error _ => .fault .noMicroOperation := by
  simp only [step, hr, State.select, State.cmdReady, hp, decide_false]
  rfl

theorem step_load (hr : s.portsNow.rst = false) (hp : s.seq.phase = .load) :
    step s = exec (.uWload s.seq.t) s.afterPorts := by
  rw [step_busy hr (by simp [hp]), show s.seq = ⟨.load, s.seq.t⟩ by rw [← hp], decode_load]

theorem step_expand (hr : s.portsNow.rst = false) (hp : s.seq.phase = .expand) :
    step s = exec (.uWexp s.seq.t) s.afterPorts := by
  rw [step_busy hr (by simp [hp]), show s.seq = ⟨.expand, s.seq.t⟩ by rw [← hp], decode_expand]

theorem step_winit (hr : s.portsNow.rst = false) (hp : s.seq.phase = .winit) :
    step s = exec (.uWinit s.seq.t) s.afterPorts := by
  rw [step_busy hr (by simp [hp]), show s.seq = ⟨.winit, s.seq.t⟩ by rw [← hp], decode_winit]

theorem step_round (hr : s.portsNow.rst = false) (hp : s.seq.phase = .round) :
    step s = exec (.uRound s.seq.t) s.afterPorts := by
  rw [step_busy hr (by simp [hp]), show s.seq = ⟨.round, s.seq.t⟩ by rw [← hp], decode_round]

theorem step_feed (hr : s.portsNow.rst = false) (hp : s.seq.phase = .feed) :
    step s = exec (.uFeed s.seq.t) s.afterPorts := by
  rw [step_busy hr (by simp [hp]), show s.seq = ⟨.feed, s.seq.t⟩ by rw [← hp], decode_feed]

theorem decodeCmd_nop (b : BitVec 512) : decodeCmd 0b00#2 b = .nop := rfl
theorem decodeCmd_init (b : BitVec 512) : decodeCmd 0b01#2 b = .init := rfl
theorem decodeCmd_block (b : BitVec 512) : decodeCmd 0b10#2 b = .block b := rfl
theorem decodeCmd_blockLast (b : BitVec 512) : decodeCmd 0b11#2 b = .blockLast b := rfl

theorem cmd_cases (c : BitVec 2) : c = 0b00#2 ∨ c = 0b01#2 ∨ c = 0b10#2 ∨ c = 0b11#2 := by
  revert c; decide

/-- Everything a step can do, if it answers a next state. -/
inductive StepCase (s : State) : State → Prop where
  | reset (hr : s.portsNow.rst = true) : StepCase s s.afterPorts.resetEdge
  | wait (hr : s.portsNow.rst = false) (hp : s.seq.phase = .idle) (hv : s.portsNow.cmdValid = false) :
      StepCase s s.afterPorts
  | nop (h : Transfer s 0b00#2) : StepCase s s.afterPorts
  | init (h : Transfer s 0b01#2) :
      StepCase s ((s.afterPorts.loadIV.setSession .active).clearError)
  | block (last : Bool) (h : Transfer s (if last then 0b11#2 else 0b10#2)) :
      StepCase s (acceptBlock last s.portsNow.block s.afterPorts)
  | load (hr : s.portsNow.rst = false) (hp : s.seq.phase = .load) (ht : s.seq.t.val ≤ 15) :
      StepCase s ((s.afterPorts.writeW s.seq.t (s.readBLK (blockIndex s.seq.t))).advance
        .load s.seq.t 15 .expand 16)
  | expand (hr : s.portsNow.rst = false) (hp : s.seq.phase = .expand) (ht : 16 ≤ s.seq.t.val) :
      StepCase s ((s.afterPorts.writeW s.seq.t (expandedWord s.W s.seq.t)).advance
        .expand s.seq.t 63 .winit 0)
  | winit (hr : s.portsNow.rst = false) (hp : s.seq.phase = .winit) (ht : s.seq.t = 0) :
      StepCase s ((s.afterPorts.writeWork s.H).goto .round 0)
  | round (hr : s.portsNow.rst = false) (hp : s.seq.phase = .round) :
      StepCase s ((s.afterPorts.writeWork (roundRegs s.r (readK s.seq.t) (s.readW s.seq.t))).advance
        .round s.seq.t 63 .feed 0)
  | feed (hr : s.portsNow.rst = false) (hp : s.seq.phase = .feed) (ht : s.seq.t = 0) :
      StepCase s ((((s.afterPorts.writeHash (feedForward s.H s.r)).setSession
        (sessionAfterFeed s)).clearLast).goto .idle 0)

/-- The inversion of `step`: later proofs take its cases apart instead of unfolding `step`. -/
theorem step_cases (h : step s = .next s') : StepCase s s' := by
  cases hr : s.portsNow.rst with
  | true =>
    rw [step_reset hr] at h
    exact Host.Outcome.next.inj h ▸ .reset hr
  | false =>
    cases hp : s.seq.phase with
    | idle =>
      cases hv : s.portsNow.cmdValid with
      | false =>
        rw [step_wait hr hp hv] at h
        exact Host.Outcome.next.inj h ▸ .wait hr hp hv
      | true =>
        rw [step_transfer hr hp hv] at h
        have ht : ∀ c, s.portsNow.cmd = c → Transfer s c := fun c hc =>
          ⟨hr, (State.cmdReady_iff s).2 hp, hv, hc⟩
        rcases cmd_cases s.portsNow.cmd with hc | hc | hc | hc
        · rw [hc, decodeCmd_nop, exec_nop] at h
          exact Host.Outcome.next.inj h ▸ .nop (ht _ hc)
        · rw [hc, decodeCmd_init, exec_init] at h
          exact Host.Outcome.next.inj h ▸ .init (ht _ hc)
        · rw [hc, decodeCmd_block, exec_block] at h
          exact Host.Outcome.next.inj h ▸ .block false (ht _ hc)
        · rw [hc, decodeCmd_blockLast, exec_blockLast] at h
          exact Host.Outcome.next.inj h ▸ .block true (ht _ hc)
    | load =>
      rw [step_load hr hp] at h
      obtain ⟨ht, rfl⟩ := exec_uWload_next h
      exact .load hr hp ht
    | expand =>
      rw [step_expand hr hp] at h
      obtain ⟨ht, rfl⟩ := exec_uWexp_next h
      exact .expand hr hp ht
    | winit =>
      rw [step_winit hr hp] at h
      obtain ⟨ht, rfl⟩ := exec_uWinit_next h
      exact .winit hr hp ht
    | round =>
      rw [step_round hr hp, exec_uRound] at h
      exact Host.Outcome.next.inj h ▸ .round hr hp
    | feed =>
      rw [step_feed hr hp] at h
      obtain ⟨ht, rfl⟩ := exec_uFeed_next h
      exact .feed hr hp ht

end Sys2Proof.Machine
end

