-- ==== Sys2Proof/Laws/Host.lean ====
section
/-! SUPPORT. The host driver: what `present` leaves in each field, what a host step does by its action, and runs
of host steps put together. -/

namespace Sys2Proof.Machine

variable (s : State) (p : PortIn)

@[simp] theorem State.present_H : (s.present p).H = s.H := rfl
@[simp] theorem State.present_r : (s.present p).r = s.r := rfl
@[simp] theorem State.present_W : (s.present p).W = s.W := rfl
@[simp] theorem State.present_BLK : (s.present p).BLK = s.BLK := rfl
@[simp] theorem State.present_hs : (s.present p).hs = s.hs := rfl
@[simp] theorem State.present_seq : (s.present p).seq = s.seq := rfl
@[simp] theorem State.present_lastQ : (s.present p).lastQ = s.lastQ := rfl
@[simp] theorem State.present_err : (s.present p).err = s.err := rfl
@[simp] theorem State.present_errCode : (s.present p).errCode = s.errCode := rfl
@[simp] theorem State.present_inputs : (s.present p).inputs = [p] := rfl
@[simp] theorem State.present_draws : (s.present p).draws = s.draws := rfl
@[simp] theorem State.present_portsNow : (s.present p).portsNow = p := rfl
@[simp] theorem State.present_afterPorts : (s.present p).afterPorts = { s with inputs := [] } := rfl

/-- If the core steps, the host goes on with the given list and its samples. -/
theorem HostRun.coreStep_next {h : HostRun} {p : PortIn} {t : State} (todo : List HostAction)
    (hs : step (h.core.present p) = .next t) : h.coreStep p todo = .next ⟨t, todo, h.reads⟩ := by
  simp [HostRun.coreStep, hs]

/-- `RDDIGEST` in `IDLE` and `DONE` samples, without a step of the core (30 R103). -/
theorem HostRun.hostStep_rdDigest {s : State} (rest : List HostAction) (reads : List HostRead)
    (hp : s.seq.phase = .idle) (hd : s.hs = .done) :
    HostRun.hostStep ⟨s, .rdDigest :: rest, reads⟩ = .next ⟨s, rest, reads ++ [.digest (digestPort s.H)]⟩ := by
  simp [HostRun.hostStep, State.cmdReady, State.digest, State.digestValid, hp, hd]

/-- `RDERR` samples, without a step of the core (30 R103). -/
theorem HostRun.hostStep_rdErr (s : State) (rest : List HostAction) (reads : List HostRead) :
    HostRun.hostStep ⟨s, .rdErr :: rest, reads⟩ = .next ⟨s, rest, reads ++ [.err s.err s.errCode.code]⟩ := rfl

theorem HostRun.hostSteps_succ {n : Nat} {h h' : HostRun} (hs : h.hostStep = .next h') :
    HostRun.hostSteps (n + 1) h = HostRun.hostSteps n h' := by
  simp [HostRun.hostSteps, hs]

/-- A run of `n + m` host steps is a run of `m` after a run of `n`. -/
theorem HostRun.hostSteps_add {n m : Nat} {h h' : HostRun} (hn : HostRun.hostSteps n h = .next h') :
    HostRun.hostSteps (n + m) h = HostRun.hostSteps m h' := by
  induction n generalizing h with
  | zero => rw [Nat.zero_add, Host.Outcome.next.inj (show Host.Outcome.next h = .next h' from hn)]
  | succ k ih =>
    simp only [HostRun.hostSteps] at hn
    split at hn
    · rename_i t ht
      rw [Nat.add_right_comm, HostRun.hostSteps_succ ht, ih hn]
    · simp at hn
    · simp at hn

end Sys2Proof.Machine
end

