-- ==== Sys2Proof/Laws/PerInstr.lean ====
section
/-! SUPPORT. Statements made once for every instruction: the fixed bits of its word are those of its row of
opcode_table.json. -/

namespace Sys2Proof.Laws.TableRow

/-- The row's `mask`: which bits are fixed. -/
def mask : Instr → Nat
  | .nop | .init | .block _ | .blockLast _ => 0x3
  | .uWload _ | .uWexp _ | .uWinit _ | .uRound _ | .uFeed _ => 0x1c0

/-- The row's `match`: the value of the fixed bits. -/
def fixedBits : Instr → Nat
  | .nop => 0x0
  | .init => 0x1
  | .block _ => 0x2
  | .blockLast _ => 0x3
  | .uWload _ => 0x040
  | .uWexp _ => 0x080
  | .uWinit _ => 0x0c0
  | .uRound _ => 0x100
  | .uFeed _ => 0x140

/-- The word of the instruction, numbered as the table numbers it, belongs to its row. -/
def Statement (i : Instr) : Prop := (encode i).tableNat &&& mask i = fixedBits i

theorem and_three (n : Nat) : n &&& 0x3 = n % 4 := Nat.and_two_pow_sub_one_eq_mod n 2

theorem nop : Statement .nop := by
  simp [Statement, encode, CodeWord.tableNat, mask, fixedBits]

theorem init : Statement .init := by
  simp [Statement, encode, CodeWord.tableNat, mask, fixedBits]

theorem block (b : BitVec 512) : Statement (.block b) := by
  unfold Statement
  rw [mask, and_three]
  exact Nat.add_mul_mod_self_right 2 b.toNat 4

theorem blockLast (b : BitVec 512) : Statement (.blockLast b) := by
  unfold Statement
  rw [mask, and_three]
  exact Nat.add_mul_mod_self_right 3 b.toNat 4

theorem uWload (t : Index) : Statement (.uWload t) := by
  unfold Statement; revert t; decide

theorem uWexp (t : Index) : Statement (.uWexp t) := by
  unfold Statement; revert t; decide

theorem uWinit (t : Index) : Statement (.uWinit t) := by
  unfold Statement; revert t; decide

theorem uRound (t : Index) : Statement (.uRound t) := by
  unfold Statement; revert t; decide

theorem uFeed (t : Index) : Statement (.uFeed t) := by
  unfold Statement; revert t; decide

end Sys2Proof.Laws.TableRow
end

