-- ==== Sys2Proof/Laws/Schedule.lean ====
section
/-! SUPPORT. The functions `Expand` and `Rounds` entry by entry, and runs of several steps. -/

namespace Sys2Proof.Machine

/-! ## The schedule -/

theorem scheduleFrom_succ (w : Schedule) (b : Block) {n : Nat} (h : n < 64) :
    scheduleFrom w b (n + 1) =
      (scheduleFrom w b n).set n (scheduleEntry b (scheduleFrom w b n) ⟨n, h⟩) := by
  simp [scheduleFrom, h]

/-- An entry put into the array is not touched again. -/
theorem scheduleFrom_stable (w : Schedule) (b : Block) (i : Index) {n m : Nat} (hi : i.val < n)
    (hnm : n ≤ m) (hm : m ≤ 64) : (scheduleFrom w b m)[i] = (scheduleFrom w b n)[i] := by
  induction m, hnm using Nat.le_induction with
  | base => rfl
  | succ k hk ih =>
    rw [← ih (by omega), scheduleFrom_succ w b (show k < 64 by omega), Fin.getElem_fin, Fin.getElem_fin,
      Vector.getElem_set_ne _ _ (by omega)]

/-- The entries put into the array do not depend on what it held. -/
theorem scheduleFrom_congr (w w' : Schedule) (b : Block) (n : Nat) (hn : n ≤ 64) (i : Index)
    (hi : i.val < n) : (scheduleFrom w b n)[i] = (scheduleFrom w' b n)[i] := by
  induction n generalizing i with
  | zero => omega
  | succ k ih =>
    rw [scheduleFrom_succ w b (show k < 64 by omega), scheduleFrom_succ w' b (show k < 64 by omega),
      Fin.getElem_fin, Fin.getElem_fin]
    by_cases hk : i.val = k
    · subst hk
      rw [Vector.getElem_set_self, Vector.getElem_set_self]
      exact scheduleEntry_congr b fun j hj => ih (by omega) j hj
    · rw [Vector.getElem_set_ne _ _ (by omega), Vector.getElem_set_ne _ _ (by omega)]
      exact ih (by omega) i (by omega)

theorem scheduleFrom_eq_expand (w : Schedule) (b : Block) : scheduleFrom w b 64 = expand b :=
  Vector.ext fun i hi => scheduleFrom_congr w _ b 64 (Nat.le_refl _) ⟨i, hi⟩ hi

theorem scheduleFrom_prefix (w : Schedule) (b : Block) {n : Nat} (hn : n ≤ 64) (i : Index)
    (hi : i.val < n) : (scheduleFrom w b n)[i] = (expand b)[i] := by
  rw [← scheduleFrom_eq_expand w b, scheduleFrom_stable w b i hi hn (Nat.le_refl _)]

/-- Each entry of `Expand(B)` is the entry that the recurrence gives from the earlier ones. -/
theorem expand_getElem (b : Block) (t : Index) : (expand b)[t] = scheduleEntry b (expand b) t := by
  rw [← scheduleFrom_prefix (Vector.replicate 64 0) b (show t.val + 1 ≤ 64 by omega) t (by omega),
    scheduleFrom_succ _ b t.isLt, Fin.getElem_fin, Vector.getElem_set_self]
  exact scheduleEntry_congr b fun i hi => scheduleFrom_prefix _ b (by omega) i hi

/-! ## The rounds -/

theorem roundsUpTo_succ (h : Words8) (w : Schedule) {n : Nat} (hn : n < 64) :
    roundsUpTo h w (n + 1) = roundRegs (roundsUpTo h w n) (readK ⟨n, hn⟩) w[n] := by
  simp [roundsUpTo, hn]

/-! ## Runs -/

theorem run_eq_core (n : Nat) (s : State) : run n s = Host.Core.run Sys2Proof.core n s := by
  induction n generalizing s with
  | zero => rfl
  | succ k ih =>
    have hs : Sys2Proof.core.step s = step s := rfl
    cases hc : step s with
    | next s' => simpa only [run, Host.Core.run, hs, hc] using ih s'
    | fault f => simp only [run, Host.Core.run, hs, hc]; rfl
    | refused r => simp only [run, Host.Core.run, hs, hc]; rfl

theorem run_succ {n : Nat} {s s' : State} (h : step s = .next s') : run (n + 1) s = run n s' := by
  simp [run, h]

/-- A run of `n + m` steps is a run of `m` after a run of `n`. -/
theorem run_add {n m : Nat} {s s' : State} (h : run n s = .next s') : run (n + m) s = run m s' := by
  induction n generalizing s with
  | zero => rw [Nat.zero_add, Host.Outcome.next.inj (show Host.Outcome.next s = .next s' from h)]
  | succ k ih =>
    simp only [run] at h
    split at h
    · rename_i t ht
      rw [Nat.add_right_comm, run_succ ht, ih h]
    · simp at h
    · simp at h

theorem run_snoc {n : Nat} {s m s' : State} (h : run n s = .next m) (hs : step m = .next s') :
    run (n + 1) s = .next s' := by
  rw [run_add h, run_succ hs]
  rfl

theorem NoReset.now {n : Nat} {s : State} (h : NoReset (n + 1) s) : s.portsNow.rst = false := by
  cases hi : s.inputs with
  | nil => simp [hi]
  | cons p ps => rw [s.portsNow_cons hi]; exact h p (by simp [hi])

theorem NoReset.mono {n m : Nat} {s : State} (h : NoReset m s) (hnm : n ≤ m) : NoReset n s :=
  fun p hp => h p ((List.take_sublist_take_left hnm).subset hp)

/-- The port sample of the step after `n` others is no reset either. -/
theorem NoReset.later {n m : Nat} {s s' : State} (h : NoReset (n + m) s)
    (hi : s'.inputs = s.inputs.drop n) : NoReset m s' := by
  intro p hp
  rw [hi, List.take_drop] at hp
  exact h p (List.mem_of_mem_drop hp)

end Sys2Proof.Machine
end

