-- ==== Sys2Proof/Tests/Slice0.lean ====
section
/-! SUPPORT. Tests: ill-formed terms, words written out from the encoding, values of the spec's own tables (95
and 96), one step of each instruction, and a witness for the hypotheses of every statement. Expected values
come from the rule or the table named in the comment above each group. -/

namespace Sys2Proof.Tests

open Sys2Proof.Machine

set_option Elab.async false

/-! ## Well-formed terms (30 R94) -/

theorem test_wf_load_refuses_16 : (Instr.uWload 16).wf = false := by decide
theorem test_wf_load_admits_15 : (Instr.uWload 15).wf = true := by decide
theorem test_wf_expand_refuses_15 : (Instr.uWexp 15).wf = false := by decide
theorem test_wf_expand_admits_16 : (Instr.uWexp 16).wf = true := by decide
theorem test_wf_winit_refuses_1 : (Instr.uWinit 1).wf = false := by decide
theorem test_wf_feed_refuses_63 : (Instr.uFeed 63).wf = false := by decide

/-! ## Words written out from the codes of 30 R93 and R94 -/

theorem test_decode_nop : decodeTableWord 8 0b00 = some .nop := by decide +kernel
theorem test_decode_init : decodeTableWord 8 0b01 = some .init := by decide +kernel
theorem test_decode_block : decodeTableWord 520 (0b10 + 4 * 0x61) = some (.block 0x61) := by decide +kernel
theorem test_decode_blockLast : decodeTableWord 520 (0b11 + 4 * 2 ^ 511) = some (.blockLast (1 <<< 511)) := by
  decide +kernel
theorem test_decode_uWload : decodeTableWord 16 0b001001010 = some (.uWload 10) := by decide +kernel
theorem test_decode_uWexp : decodeTableWord 16 0b010110001 = some (.uWexp 49) := by decide +kernel
theorem test_decode_uWinit : decodeTableWord 16 0b011000000 = some (.uWinit 0) := by decide +kernel
theorem test_decode_uRound : decodeTableWord 16 0b100000101 = some (.uRound 5) := by decide +kernel
theorem test_decode_uFeed : decodeTableWord 16 0b101000000 = some (.uFeed 0) := by decide +kernel
theorem test_decode_idle_selects_none : decodeTableWord 16 0b000000000 = none := by decide +kernel
theorem test_decode_phase_110_rejected : decode (.seq 0b110000000#9) = .error .noSuchPhase := rfl

/-! ## Function units (96 section 1) -/

theorem test_add32 : add32 0xa54ff53a#32 0x54da50e8#32 = 0xfa2a4622#32 := by decide
theorem test_rotr : rotr 0x12345678#32 7 = 0xf02468ac#32 := by decide
theorem test_shr : shr 0x12345678#32 3 = 0x02468acf#32 := by decide
theorem test_sig0 : sig0 0x61626380#32 = 0x940e90ef#32 := by decide
theorem test_sig1 : sig1 0x000f0000#32 = 0x600003c6#32 := by decide
theorem test_bsig0 : bsig0 0x6a09e667#32 = 0xce20b47e#32 := by decide
theorem test_bsig1 : bsig1 0x510e527f#32 = 0x3587272b#32 := by decide
theorem test_ch : ch 0x510e527f#32 0x9b05688c#32 0x1f83d9ab#32 = 0x1f85c98c#32 := by decide
theorem test_maj : maj 0x6a09e667#32 0xbb67ae85#32 0x3c6ef372#32 = 0x3a6fe667#32 := by decide

/-! ## Constants (20 R63), functions and host contract (95 sections 1 and 2, 96 section 2) -/

theorem test_constant_63 : readK 63 = 0xc67178f2#32 := by decide

/-- The block of "abc" (95 S2), as its Words and as the port carries it. -/
def abcWords : Block := #v[0x61626380, 0, 0, 0, 0, 0, 0, 0, 0, 0, 0, 0, 0, 0, 0, 0x18]

def abcBlock : BitVec 512 := 0x61626380#32 ++ (0x18 : BitVec 480)

theorem test_block_port : blockWords abcBlock = abcWords := by decide +kernel

/-- 95 S2: the message "abc" is padded to that block. -/
theorem test_pad_abc : messageBlocks [0x61#8, 0x62#8, 0x63#8] = [abcBlock] := by decide +kernel

/-- 96 section 2.1, E-abc, the last entry. -/
theorem test_expand_abc : (expand abcWords)[(63 : Index)] = 0x12b1edeb#32 := by decide +kernel

/-- 95 S1: `compute_digest("")`. -/
theorem test_digest_empty : computeDigest [] =
    #v[0xe3b0c442#32, 0x98fc1c14#32, 0x9afbf4c8#32, 0x996fb924#32, 0x27ae41e4#32, 0x649b934c#32, 0xa495991b#32,
      0x7852b855#32] := by decide +kernel

/-- 95 S2: `compute_digest("abc")`. -/
theorem test_digest_abc : computeDigest [0x61#8, 0x62#8, 0x63#8] =
    #v[0xba7816bf#32, 0x8f01cfea#32, 0x414140de#32, 0x5dae2223#32, 0xb00361a3#32, 0x96177a9c#32, 0xb410ff61#32,
      0xf20015ad#32] := by decide +kernel

/-- 95 M56: two blocks; the digest of fifty-six bytes 0x61. -/
theorem test_digest_two_blocks : computeDigest (List.replicate 56 0x61#8) =
    #v[0xb35439a4#32, 0xac6f0948#32, 0xb6d6f9e3#32, 0xc6af0f5f#32, 0x590ce20f#32, 0x1bde7090#32, 0xef797068#32,
      0x6ec6738a#32] := by decide +kernel

/-- 45 R189: two digits of a Word with leading zeros. -/
theorem test_word_text : wordText 0x0000abcd#32 = ['0', '0', '0', '0', 'a', 'b', 'c', 'd'] := by decide

/-! ## Small states -/

/-- An open computation with the sequencer at `(p, t)`. -/
def busy (p : Phase) (t : Index) : State := { State.reset with hs := .active, seq := ⟨p, t⟩ }

/-- In `IDLE`, in the session state `hs`. -/
def idling (hs : Session) : State := { State.reset with hs := hs }

/-- The host presents a command at the coming step. -/
def offering (s : State) (code : BitVec 2) (b : BitVec 512) : State :=
  { s with inputs := [{ rst := false, cmdValid := true, cmd := code, block := b }] }

/-- Reset is in effect at the coming step, whatever the command ports show. -/
def resetting (s : State) : State :=
  { s with inputs := [{ rst := true, cmdValid := true, cmd := 0b01#2, block := 0 }] }

/-- The finished computation of "abc" with the error of 44 R162's example. -/
def finished : State :=
  { idling .done with
    H := #v[0xba7816bf, 0x8f01cfea, 0x414140de, 0x5dae2223, 0xb00361a3, 0x96177a9c, 0xb410ff61, 0xf20015ad]
    err := true
    errCode := .terminal }

/-- One field of the next state. -/
def next? {α : Type} (o : Host.Outcome State Fault Refusal) (f : State → α) : Option α :=
  match o with
  | .next s => some (f s)
  | _ => none

/-! ## One step of each instruction -/

/-- 95 TR16. -/
theorem test_nop_keeps_the_error :
    next? (exec .nop finished) (fun s => (s.hs, s.err, s.errCode)) = some (.done, true, .terminal) := by decide

/-- 44 R162, the example. -/
theorem test_init : next? (exec .init finished) (fun s => (s.H[(0 : Fin 8)], s.H[(7 : Fin 8)], s.hs, s.err, s.errCode)) =
    some (0x6a09e667#32, 0x5be0cd19#32, .active, false, .none) := by decide

/-- 95 TR3. -/
theorem test_block_before_init :
    next? (exec (.block 0) (idling .empty)) (fun s => (s.hs, s.err, s.errCode, s.cmdReady)) =
      some (.empty, true, .noInit, true) := by decide +kernel

/-- 44 R163: the latch and the start. -/
theorem test_block_is_latched :
    next? (exec (.block abcBlock) (idling .active)) (fun s => (s.BLK[(15 : Fin 16)], s.lastQ, s.seq, s.cmdReady)) =
      some (0x18#32, false, ⟨.load, 0⟩, false) := by decide +kernel

/-- 95 TR14. -/
theorem test_blockLast_after_done :
    next? (exec (.blockLast 0) (idling .done)) (fun s => (s.hs, s.err, s.errCode, s.digestValid)) =
      some (.done, true, .terminal, true) := by decide +kernel

/-- 44 R164: the difference from `BLOCK`. -/
theorem test_blockLast_is_latched :
    next? (exec (.blockLast abcBlock) (idling .active)) (fun s => (s.BLK[(0 : Fin 16)], s.lastQ, s.seq)) =
      some (0x61626380#32, true, ⟨.load, 0⟩) := by decide +kernel

/-- 41 R130, the example. -/
theorem test_uWload :
    next? (exec (.uWload 15) { busy .load 15 with BLK := abcWords }) (fun s => (s.readW 15, s.seq)) =
      some (0x18#32, ⟨.expand, 16⟩) := by decide +kernel

/-- 41 R131, the example at `t = 17`. -/
theorem test_uWexp :
    next? (exec (.uWexp 17) ((busy .expand 17).writeW 15 0x18)) (fun s => (s.readW 17, s.seq)) =
      some (0x000f0000#32, ⟨.expand, 18⟩) := by decide +kernel

/-- 96 section 2.1: `t = 22` of E-abc, with a sum. -/
theorem test_uWexp_sum :
    next? (exec (.uWexp 22) (((busy .expand 22).writeW 15 0x18).writeW 20 0x3e9d7b78)) (fun s => s.readW 22) =
      some 0x12dcbfdb#32 := by decide +kernel

/-- 42 R140, the example. -/
theorem test_uWinit :
    next? (exec (.uWinit 0) { busy .winit 0 with H := initialHash })
      (fun s => (s.r[(0 : Fin 8)], s.r[(4 : Fin 8)], s.r[(7 : Fin 8)], s.seq)) =
      some (0x6a09e667#32, 0x510e527f#32, 0x5be0cd19#32, ⟨.round, 0⟩) := by decide +kernel

/-- 96 section 2.2: "abc", round 0. -/
theorem test_uRound :
    next? (exec (.uRound 0) (({ busy .round 0 with r := initialHash } : State).writeW 0 0x61626380))
      (fun s => (s.r, s.seq)) =
      some (#v[0x5d6aebcd#32, 0x6a09e667#32, 0xbb67ae85#32, 0x3c6ef372#32, 0xfa2a4622#32, 0x510e527f#32,
        0x9b05688c#32, 0x1f83d9ab#32], ⟨.round, 1⟩) := by decide +kernel

/-- 43 R152, the example. -/
theorem test_uFeed :
    next? (exec (.uFeed 0) { busy .feed 0 with
        H := initialHash
        r := #v[0x506e3058, 0xd39a2165, 0x04d24d6c, 0xb85e2ce9, 0x5ef50f24, 0xfb121210, 0x948d25b6, 0x961f4894]
        lastQ := true })
      (fun s => (s.H, s.hs, s.lastQ, s.seq)) =
      some (#v[0xba7816bf#32, 0x8f01cfea#32, 0x414140de#32, 0x5dae2223#32, 0xb00361a3#32, 0x96177a9c#32,
        0xb410ff61#32, 0xf20015ad#32], .done, false, ⟨.idle, 0⟩) := by decide +kernel

/-- 30 R99 (b), 93 U6: a word that does not exist. -/
theorem test_no_such_word_is_stuck : exec (.uWload 16) (busy .load 0) = .fault .noMicroOperation := rfl

/-- 60 R208 (a), 95 TR19: reset wins over an `INIT` on the ports. -/
theorem test_reset_wins : next? (step (resetting (busy .round 40))) (fun s => (s.hs, s.seq, s.cmdReady)) =
    some (.empty, ⟨.idle, 0⟩, true) := rfl

/-! ## Witnesses: each statement's hypotheses are met -/

theorem test_witness_StepRunsTheSelectedInstruction :
    (offering (idling .active) 0b11#2 7).portsNow.rst = false ∧
    (offering (idling .active) 0b11#2 7).select (offering (idling .active) 0b11#2 7).portsNow =
      some (.cmd 0b11#2 7) ∧ decode (.cmd 0b11#2 7) = .ok (.blockLast 7) := ⟨rfl, rfl, rfl⟩

theorem test_witness_StepRunsTheSelectedInstruction_seq :
    (busy .expand 63).portsNow.rst = false ∧
    (busy .expand 63).select (busy .expand 63).portsNow = some (.seq 0b010111111#9) ∧
    decode (.seq 0b010111111#9) = .ok (.uWexp 63) := ⟨rfl, rfl, rfl⟩

/-- A command on the ports in `IDLE`, and each other phase. -/
theorem test_witness_PhaseSelectsTheInstruction :
    (∀ code : BitVec 2, (offering (idling .active) code 0).portsNow.rst = false ∧
      (offering (idling .active) code 0).seq.phase = .idle ∧
      (offering (idling .active) code 0).portsNow.cmdValid = true ∧
      (offering (idling .active) code 0).portsNow.cmd = code) ∧
    (∀ p : Phase, (busy p 0).portsNow.rst = false ∧ (busy p 0).seq.phase = p) :=
  ⟨fun _ => ⟨rfl, rfl, rfl, rfl⟩, fun _ => ⟨rfl, rfl⟩⟩

theorem test_witness_PlacedWordIsRunNext : decodeTableWord 8 0b01 = some .init ∧
    decodeTableWord 16 0b100111111 = some (.uRound 63) := by decide +kernel

theorem test_witness_CompletesExactlyWhenWellFormed :
    (Instr.nop).wf = true ∧ (Instr.init).wf = true ∧ (Instr.block 0).wf = true ∧ (Instr.blockLast 0).wf = true ∧
    (Instr.uWload 15).wf = true ∧ (Instr.uWexp 16).wf = true ∧ (Instr.uWinit 0).wf = true ∧
    (Instr.uRound 63).wf = true ∧ (Instr.uFeed 0).wf = true ∧ (Instr.uWexp 15).wf = false := by decide +kernel

/-- The least and the greatest amount, and a result that equals another of the same Word. -/
theorem test_witness_RotrIsACircularRotation :
    (1 ≤ 1 ∧ 1 ≤ 31 ∧ 31 < 32) ∧ (1 ≤ 31 ∧ 31 ≤ 31) ∧ rotr 0x1#32 31 = rotr 0x1#32 31 := by decide

/-- The least and the greatest amount, with the least and the greatest bit. -/
theorem test_witness_ShrIsTheQuotient : (0 ≤ 31 ∧ 31 ≤ 31) ∧ (0 < 32 ∧ 31 < 32) := by decide
theorem test_witness_BitwiseUnitsBitByBit : 31 < 32 ∧ 0 < 32 := by decide
theorem test_witness_SigmaFunctionsBitByBit : 31 < 32 ∧ 0 < 32 := by decide
theorem test_witness_ChooseTakesTheChosenBit : 31 < 32 ∧ (1#32).getLsbD 0 = true ∧ (1#32).getLsbD 31 = false := by
  decide
theorem test_witness_MajorityOfThreeBits : 31 < 32 ∧ 0 < 32 := by decide

theorem test_witness_ScheduleWriteThenRead :
    (0 : Index) ≠ 63 ∧ ∀ sp : Space, sp = .K ∨ sp = .BLK ∨ sp = .H ∨ sp = .r → sp ≠ .W := by
  refine ⟨by decide, ?_⟩
  rintro sp (rfl | rfl | rfl | rfl) <;> decide

theorem test_witness_BlockPortCarriesBytesInOrder : (List.replicate 64 0x80#8).length = 64 := by decide

theorem test_witness_StatusOutputsFollowTheState :
    ControlInv finished ∧ finished.outputs.digestValid = true := by decide

theorem test_witness_DigestPortShowsTheHash : finished.hs = .done ∧ (idling .active).hs ≠ .done := by decide

/-- A wait, a `NOP` and a refused `BLOCK` in `DONE`. -/
theorem test_witness_FinishedDigestIsFrozen :
    (ControlInv finished ∧ finished.hs = .done ∧ finished.portsNow.rst = false ∧ ¬ Transfer finished 0b01#2 ∧
      ∃ s', step finished = .next s') ∧
    (ControlInv (offering (idling .done) 0b10#2 0) ∧ (offering (idling .done) 0b10#2 0).hs = .done ∧
      (offering (idling .done) 0b10#2 0).portsNow.rst = false ∧ ¬ Transfer (offering (idling .done) 0b10#2 0) 0b01#2 ∧
      ∃ s', step (offering (idling .done) 0b10#2 0) = .next s') := by
  refine ⟨⟨by decide, rfl, rfl, ?_, _, rfl⟩, ⟨by decide, rfl, rfl, ?_, _, rfl⟩⟩
  · rintro ⟨-, -, h, -⟩
    exact absurd h (by decide)
  · rintro ⟨-, -, -, h⟩
    exact absurd h (by decide)

theorem test_witness_NopChangesNothing : Transfer (offering finished 0b00#2 0) 0b00#2 := ⟨rfl, rfl, rfl, rfl⟩

theorem test_witness_BlockIsAcceptedWhenActive : (idling .active).hs = .active := rfl

/-- Both causes; the first error and a second one. -/
theorem test_witness_SeqErrorRecordsTheFirstCause :
    ((idling .empty).hs = .empty ∧ (idling .empty).err = false) ∧
    ((idling .done).hs = .done ∧ (idling .done).err = false) ∧ (finished.hs = .done ∧ finished.err = true) := by
  decide

/-- A reset, an `INIT`, the `U_FEED` of a last block, and a step that is none of these. -/
theorem test_witness_SessionStateTransitions :
    ((∃ s', step (resetting finished) = .next s') ∧ (resetting finished).portsNow.rst = true) ∧
    ((∃ s', step (offering finished 0b01#2 0) = .next s') ∧ Transfer (offering finished 0b01#2 0) 0b01#2) ∧
    ((∃ s', step { busy .feed 0 with lastQ := true } = .next s') ∧
      ({ busy .feed 0 with lastQ := true } : State).portsNow.rst = false) ∧
    ((∃ s', step (busy .feed 0) = .next s') ∧ (busy .feed 0).portsNow.rst = false ∧ ¬ Transfer (busy .feed 0) 0b01#2 ∧
      ¬ ((busy .feed 0).seq.phase = .feed ∧ (busy .feed 0).lastQ = true)) := by
  refine ⟨⟨⟨_, rfl⟩, rfl⟩, ⟨⟨_, rfl⟩, rfl, rfl, rfl, rfl⟩, ⟨⟨_, rfl⟩, rfl⟩, ⟨_, rfl⟩, rfl, ?_, ?_⟩
  · rintro ⟨-, h, -, -⟩
    exact absurd h (by decide)
  · rintro ⟨-, h⟩
    exact absurd h (by decide)

theorem test_witness_IdleWaitsWithoutChange : (idling .done).seq.phase = .idle ∧
    (idling .done).portsNow.rst = false ∧ (idling .done).portsNow.cmdValid = false := by decide

theorem test_witness_PortsHaveNoEffectOutsideATransfer :
    (offering (idling .done) 0b01#2 7).portsNow.rst = false ∧ PortIn.quiet.rst = false ∧
    (busy .load 0).seq.phase ≠ .idle ∧ (idling .done).seq.phase = .idle ∧ PortIn.quiet.cmdValid = false ∧
    ({ PortIn.quiet with cmd := 0b11#2 } : PortIn).cmdValid = false := ⟨rfl, rfl, by decide, rfl, rfl, rfl⟩

theorem test_witness_WloadCopiesABlockWord : (0 : Index).val < 15 ∧ (14 : Index).val < 15 ∧ (15 : Index).val = 15 ∧
    (15 : Index).val < 16 := by decide

theorem test_witness_WexpComputesAScheduleWord : 16 ≤ (16 : Index).val ∧ (62 : Index).val < 63 ∧
    (63 : Index).val = 63 ∧ 16 ≤ (63 : Index).val := by decide

theorem test_witness_RoundAssignsTheRegisters : (0 : Index).val < 63 ∧ (62 : Index).val < 63 ∧
    (63 : Index).val = 63 := by decide

theorem test_witness_FeedAddsWordByWord : ({ busy .feed 0 with lastQ := true } : State).lastQ = true ∧
    (busy .feed 0).lastQ = false := by decide

/-- The schedule of zeros meets the recurrence for the block of zeros. -/
theorem test_witness_ExpandIsTheRecurrence : ∀ t : Index, 16 ≤ t.val →
    (Vector.replicate 64 (0 : Word))[t] = sig1 (0 : Word) + 0 + sig0 (0 : Word) + 0 := by decide +kernel

theorem test_witness_ExpanderStepsComputeExpand : (busy .load 0).seq = ⟨.load, 0⟩ ∧ NoReset 64 (busy .load 0) := by
  unfold NoReset; decide

theorem test_witness_RoundStepsComputeRounds : (busy .winit 0).seq = ⟨.winit, 0⟩ ∧ NoReset 65 (busy .winit 0) := by
  unfold NoReset; decide

/-- The numbers of steps where the clauses meet. -/
theorem test_witness_SequencerFollowsTheFixedPath : (busy .load 0).seq = ⟨.load, 0⟩ ∧ NoReset 130 (busy .load 0) ∧
    ∀ n ∈ [0, 15, 16, 63, 64, 65, 128, 129, 130], n ≤ Config.uopsPerBlock := by
  unfold NoReset; decide

theorem test_witness_WholeBlockCompresses : ∀ last : Bool,
    (offering (idling .active) (if last then 0b11#2 else 0b10#2) abcBlock).hs = .active ∧
    NoReset 131 (offering (idling .active) (if last then 0b11#2 else 0b10#2) abcBlock) ∧
    Transfer (offering (idling .active) (if last then 0b11#2 else 0b10#2) abcBlock)
      (if last then 0b11#2 else 0b10#2) :=
  fun _ => ⟨rfl, by simp [NoReset, offering], rfl, rfl, rfl, rfl⟩

theorem test_witness_IdleIsReachedWithoutTheHost :
    ControlInv (busy .load 0) ∧ NoReset Config.uopsPerBlock (busy .load 0) := by
  unfold NoReset; decide

theorem test_witness_ResetWinsOverEverything : (resetting (busy .feed 0)).portsNow.rst = true := rfl

theorem test_witness_EveryStepKeepsTheControlInvariant : ControlInv { busy .expand 63 with lastQ := true } ∧
    ControlInv finished := by decide

theorem test_witness_EveryStepKeepsTheErrorInvariant : ControlInv finished ∧ ErrorInv finished ∧
    finished.err = true ∧ ∃ s', step finished = .next s' := ⟨by decide, by decide, rfl, _, rfl⟩

/-- The last round of a block of zeros on a hash of zeros: each clause's phase has its state below. -/
def lastRound : State :=
  { busy .round 63 with r := roundsUpTo (Vector.replicate 8 0) (expand (Vector.replicate 16 0)) 63 }

/-- The same block before its `U_FEED`. -/
def finalFeed : State :=
  { busy .feed 0 with r := rounds (Vector.replicate 8 0) (expand (Vector.replicate 16 0)) }

theorem test_witness_EveryStepKeepsTheDataInvariant :
    (DataInv (busy .load 15) ∧ ∃ s', step (busy .load 15) = .next s') ∧
    (DataInv (busy .expand 63) ∧ ∃ s', step (busy .expand 63) = .next s') ∧
    (DataInv (busy .winit 0) ∧ ∃ s', step (busy .winit 0) = .next s') ∧
    (DataInv lastRound ∧ ∃ s', step lastRound = .next s') ∧
    (DataInv finalFeed ∧ ∃ s', step finalFeed = .next s') := by
  refine ⟨⟨?_, _, rfl⟩, ⟨?_, _, rfl⟩, ⟨?_, _, rfl⟩, ⟨?_, _, rfl⟩, ?_, _, rfl⟩ <;> decide +kernel

/-- A state whose stale and unwritten Words are all ones, beside one whose are zeros. -/
def staleOnes (s : State) : State :=
  { s with r := Vector.replicate 8 0xffffffff, W := Vector.replicate 64 0xffffffff }

theorem test_witness_NoStaleWordIsEverRead :
    (Agree (idling .empty) { staleOnes (idling .empty) with H := Vector.replicate 8 1 } ∧
      ControlInv (idling .empty) ∧ ∃ t, step (idling .empty) = .next t) ∧
    (Agree (busy .load 0) (staleOnes (busy .load 0)) ∧ ControlInv (busy .load 0) ∧
      ∃ t, step (busy .load 0) = .next t) ∧
    (Agree (busy .round 63) { busy .round 63 with BLK := Vector.replicate 16 1 } ∧ ControlInv (busy .round 63) ∧
      ∃ t, step (busy .round 63) = .next t) := by
  refine ⟨⟨?_, by decide, _, rfl⟩, ⟨?_, by decide, _, rfl⟩, ?_, by decide, _, rfl⟩ <;>
    constructor <;> decide +kernel

theorem test_witness_ControlDoesNotDependOnData :
    SameControl (offering (idling .active) 0b10#2 0)
      { offering (staleOnes (idling .active)) 0b10#2 7 with H := Vector.replicate 8 1 } ∧
    ∃ t, step (offering (idling .active) 0b10#2 0) = .next t :=
  ⟨⟨rfl, rfl, rfl, rfl, rfl, by simp [offering, PortIn.control]⟩, _, rfl⟩

theorem test_witness_OnlyInitAndResetClearTheError : (∃ s', step (offering finished 0b00#2 0) = .next s') ∧
    (offering finished 0b00#2 0).err = true ∧ (offering finished 0b00#2 0).portsNow.rst = false ∧
    ¬ Transfer (offering finished 0b00#2 0) 0b01#2 := by
  refine ⟨⟨_, rfl⟩, rfl, rfl, ?_⟩
  rintro ⟨-, -, -, h⟩
  exact absurd h (by decide)

theorem test_witness_OnlyARefusedBlockRaisesTheError :
    (∃ s', step (offering (idling .empty) 0b10#2 0) = .next s' ∧ s'.err = true) ∧
    (∃ s', step (offering (idling .done) 0b11#2 0) = .next s' ∧ s'.err = true) ∧
    (offering (idling .empty) 0b10#2 0).err = false ∧ (offering (idling .done) 0b11#2 0).err = false :=
  ⟨⟨_, rfl, rfl⟩, ⟨_, rfl, rfl⟩, rfl, rfl⟩

/-- A step for each column: `H` and `last_q`, `r`, `W`, `BLK` and `last_q`. -/
theorem test_witness_AccessMatrixOfWriters :
    (∃ s', step { busy .feed 0 with lastQ := true, r := Vector.replicate 8 1 } = .next s' ∧
      s'.H ≠ Vector.replicate 8 0 ∧ s'.lastQ ≠ true) ∧
    (∃ s', step (busy .round 0) = .next s' ∧ s'.r ≠ (busy .round 0).r) ∧
    (∃ s', step { busy .load 0 with BLK := abcWords } = .next s' ∧ s'.W[(0 : Index)] ≠ (busy .load 0).W[(0 : Index)]) ∧
    (∃ s', step (offering (idling .active) 0b11#2 abcBlock) = .next s' ∧ s'.BLK ≠ (idling .active).BLK ∧
      s'.lastQ ≠ (idling .active).lastQ) := by
  refine ⟨⟨_, rfl, ?_, ?_⟩, ⟨_, rfl, ?_⟩, ⟨_, rfl, ?_⟩, _, rfl, ?_, ?_⟩ <;> decide +kernel

/-- A number of zero bytes that reaches 56, and the first and the last block of two. -/
theorem test_witness_PaddingFillsWholeBlocks : (0 + 1 + zeroBytes 0) % 64 = 56 ∧ (56 + 1 + zeroBytes 56) % 64 = 56 ∧
    0 < blockCount (List.replicate 56 0x61#8).length ∧ 1 < blockCount (List.replicate 56 0x61#8).length := by
  decide

theorem test_witness_LastBlockCarriesTheBitLength : ([] : List Byte).length ≤ messageLimit ∧
    (List.replicate 56 0x61#8).length ≤ messageLimit := by decide

/-- From the finished state of an earlier computation, with its error. -/
theorem test_witness_HashScriptReadsTheDigest : finished.seq = ⟨.idle, 0⟩ ∧
    ([0x61#8, 0x62#8, 0x63#8] : List Byte).length ≤ messageLimit := by decide

/-- A command offered in `IDLE`, one offered in `ROUND` with the step the core makes, and a wait in `ACTIVE`. -/
theorem test_witness_HostWaitsForTheCore :
    ((⟨idling .empty, [.command 0b01#2 0], []⟩ : HostRun).todo = .command 0b01#2 0 :: [] ∧
      (idling .empty).outputs.cmdReady = true) ∧
    ((⟨busy .round 5, [.command 0b01#2 0], []⟩ : HostRun).todo = .command 0b01#2 0 :: [] ∧
      (busy .round 5).outputs.cmdReady = false ∧
      ∃ h', HostRun.hostStep ⟨busy .round 5, [.command 0b01#2 0], []⟩ = .next h') ∧
    ((idling .active).seq.phase = .idle ∧ (idling .active).hs ≠ .done ∧ (idling .active).inputs = []) :=
  ⟨⟨rfl, rfl⟩, ⟨rfl, rfl, _, rfl⟩, rfl, by decide, rfl⟩

/-- From the finished state of an earlier computation: the order of work of "abc" with a `NOP` before and after
each of its later actions, and another value on the block port during the `INIT`. -/
theorem test_witness_OrderOfWorkReadsTheDigestAndNoError : finished.seq = ⟨.idle, 0⟩ ∧
    ([0x61#8, 0x62#8, 0x63#8] : List Byte).length ≤ messageLimit ∧
    HostAction.doWork [0x61#8, 0x62#8, 0x63#8]
      (.command 0b01#2 7 :: (messageScript [0x61#8, 0x62#8, 0x63#8]).tail.flatMap fun a =>
        [.command 0b00#2 9, a, .command 0b00#2 0]) = true := by
  decide +kernel

/-- 45 R187: the block of a `BLOCK_LAST` is read, so another one is another work. -/
theorem test_another_block_is_no_order_of_work :
    HostAction.doWork [] [.command 0b01#2 0, .command 0b11#2 0, .rdDigest, .rdErr] = false := by decide +kernel

/-- 45 R187: another `INIT` inside the work is not the order of work. -/
theorem test_second_init_is_no_order_of_work :
    HostAction.doWork [] (.command 0b01#2 0 :: messageScript []) = false := by decide +kernel

end Sys2Proof.Tests
end

section
/-! PROOFS. The write of a schedule Word (20 R60, R62, R72), the step of the sequencer inside a phase (44 R167) and
one round (42 R141, R142). -/

namespace Sys2Proof.Machine

/-! ## Reading after a write -/

theorem State.memRead_writeW_self (s : State) (t : Index) (v : Word) :
    (s.writeW t v).memRead .W t = v := by
  simp [State.memRead, State.readW]

theorem State.memRead_writeW_ne (s : State) {t u : Index} (v : Word) (h : u ≠ t) :
    (s.writeW t v).memRead .W u = s.memRead .W u :=
  Vector.getElem_set_ne t.isLt u.isLt fun he => h (Fin.ext he.symm)

/-- A write to the schedule reaches no other storage space. -/
theorem State.memRead_writeW_of_space_ne (s : State) (t : Index) (v : Word) (sp : Space)
    (i : Fin sp.entries) (h : sp ≠ .W) : (s.writeW t v).memRead sp i = s.memRead sp i := by
  cases sp with
  | W => exact absurd rfl h
  | K => rfl
  | BLK => rfl
  | H => rfl
  | r => rfl

/-- Settles O16: the three reading rules of `writeW`. -/
theorem scheduleWriteThenRead : Obligations.ScheduleWriteThenRead := fun s t v =>
  ⟨s.memRead_writeW_self t v, fun _ h => s.memRead_writeW_ne v h, s.memRead_writeW_of_space_ne t v⟩

/-! ## The step of the sequencer inside a phase -/

/-- `advance` assigns the sequencer and nothing else. -/
theorem State.advance_eq (s : State) (p : Phase) (t last : Index) (q : Phase) (n : Index) :
    s.advance p t last q n = { s with seq := if t = last then ⟨q, n⟩ else ⟨p, t + 1⟩ } := by
  unfold State.advance; split <;> rfl

theorem index_val_add_one {t : Index} (h : t.val < 63) : (t + 1).val = t.val + 1 :=
  Fin.val_add_one_of_lt (Fin.lt_def.2 h)

theorem State.advance_seq_of_lt (s : State) (p : Phase) {t last : Index} (q : Phase) (n : Index)
    (h : t.val < last.val) :
    (s.advance p t last q n).seq.phase = p ∧ (s.advance p t last q n).seq.t.val = t.val + 1 := by
  have hne : t ≠ last := fun he => absurd (congrArg Fin.val he) (by omega)
  have ht : (t + 1).val = t.val + 1 := index_val_add_one (by omega)
  simp only [State.advance_seq, if_neg hne, ht, and_self]

theorem State.advance_seq_of_eq (s : State) (p : Phase) {t last : Index} (q : Phase) (n : Index)
    (h : t.val = last.val) : (s.advance p t last q n).seq = ⟨q, n⟩ := by
  rw [State.advance_seq, if_pos (Fin.ext h)]

/-- A sequencer word given case by case is the one that `advance` assigns at index `n`. -/
theorem seq_eq_of_le_last {q next : Seq} {p : Phase} {n : Nat} {last : Index} (hn : n ≤ last.val)
    (heq : n = last.val → q = next) (hlt : (h : n < last.val) → q = ⟨p, ⟨n + 1, by omega⟩⟩) :
    q = if (⟨n, by omega⟩ : Index) = last then next else ⟨p, ⟨n, by omega⟩ + 1⟩ := by
  split
  next he => exact heq (congrArg Fin.val he)
  next hne =>
    have hl : n < last.val := Nat.lt_of_le_of_ne hn fun he => hne (Fin.ext he)
    rw [hlt hl]
    have hval : ((⟨n, by omega⟩ : Index) + 1).val = n + 1 := index_val_add_one (show n < 63 by omega)
    exact congrArg (Seq.mk p) (Fin.ext hval.symm)

/-! ## One round -/

theorem roundT1_toNat (r : Words8) (k w : Word) :
    (roundT1 r k w).toNat = ((r[7]).toNat + (bsig1 r[4]).toNat + (ch r[4] r[5] r[6]).toNat + k.toNat +
      w.toNat) % 2 ^ 32 := by
  simp [roundT1]

theorem roundT2_toNat (r : Words8) :
    (roundT2 r).toNat = ((bsig0 r[0]).toNat + (maj r[0] r[1] r[2]).toNat) % 2 ^ 32 :=
  add32_toNat _ _

/-- Settles O31: the state is the one of `exec_uRound`, T1 and T2 are `roundT1` and `roundT2`, and the six
copies and the frame are entries and fields of that state. -/
theorem roundAssignsTheRegisters : Obligations.RoundAssignsTheRegisters := by
  intro s t
  refine ⟨_, (roundT1 s.r (readK t) (s.readW t)).toNat, (roundT2 s.r).toNat, exec_uRound t s,
    roundT1_toNat _ _ _, roundT2_toNat _, ?_⟩
  rw [State.advance_r, State.writeWork_r]
  refine ⟨add32_toNat _ _, rfl, rfl, rfl, add32_toNat _ _, rfl, rfl, rfl,
    fun h => State.advance_seq_of_lt _ _ _ _ h, fun h => State.advance_seq_of_eq _ _ _ _ h, ?_⟩
  rw [State.advance_eq]
  rfl

end Sys2Proof.Machine
end

section
/-! PROOFS. The 130 micro-operations of a block (44 R167), whatever the command ports show. -/

namespace Sys2Proof.Machine

/-! ## Micro-operations -/

/-- The sequencer of `s` runs a micro-operation that leaves `s'`, whatever the command ports show (44 R160),
provided no reset is in effect; the two `inputs` fields do not count. -/
def MicroStep (s s' : State) : Prop :=
  s.seq.phase ≠ .idle ∧ ∀ ports : List PortIn, (ports.headD PortIn.quiet).rst = false →
    step { s with inputs := ports } = .next { s' with inputs := ports.tail }

/-- `n` micro-operations, one after the other. -/
inductive MicroSteps : Nat → State → State → Prop where
  | zero (s : State) : MicroSteps 0 s s
  | snoc {n : Nat} {s m s' : State} (h : MicroSteps n s m) (hs : MicroStep m s') : MicroSteps (n + 1) s s'

theorem MicroSteps.trans {n k : Nat} {s m s' : State} (h : MicroSteps n s m) (h' : MicroSteps k m s') :
    MicroSteps (n + k) s s' := by
  induction h' with
  | zero _ => exact h
  | snoc _ hs ih => exact .snoc (ih h) hs

/-- A path of states, each reached from the one before by a micro-operation, is a run along it. -/
theorem MicroSteps.of_path (f : Nat → State) {n : Nat} (h : ∀ k, k < n → MicroStep (f k) (f (k + 1))) :
    MicroSteps n (f 0) (f n) := by
  induction n with
  | zero => exact .zero _
  | succ k ih => exact .snoc (ih fun j hj => h j (by omega)) (h k (by omega))

/-- What ties `MicroSteps` to the machine: while no reset comes they are steps of the core, each using up one sample
of the ports. -/
theorem MicroSteps.run_eq {n : Nat} {s s' : State} (h : MicroSteps n s s') {ports : List PortIn}
    (hr : NoReset n { s with inputs := ports }) :
    run n { s with inputs := ports } = .next { s' with inputs := ports.drop n } := by
  induction h with
  | zero _ => rfl
  | @snoc n _ m _ _ hs ih =>
    have hm := ih (hr.mono (Nat.le_succ n))
    have hnow : ((ports.drop n).headD PortIn.quiet).rst = false :=
      (hr.later (s' := { m with inputs := ports.drop n }) rfl).now
    rw [← List.tail_drop]
    exact run_snoc hm (hs.2 _ hnow)

/-! ## The micro-operation of each phase -/

/-- The sequencer's word decodes to `i`, and `exec i` neither reads nor writes the port list. -/
theorem microStep_of_exec {s s' : State} {i : Instr} (hp : s.seq.phase ≠ .idle)
    (hd : decode (.seq s.seq.word) = .ok i)
    (he : ∀ ports, exec i { s with inputs := ports } = .next { s' with inputs := ports }) :
    MicroStep s s' := by
  refine ⟨hp, fun ports hr => ?_⟩
  rw [step_busy (s := { s with inputs := ports }) hr hp, hd]
  exact he ports.tail

variable {s : State} {t : Index}

theorem microStep_load (h : s.seq = ⟨.load, t⟩) (ht : t.val ≤ 15) :
    MicroStep s ((s.writeW t (s.readBLK (blockIndex t))).advance .load t 15 .expand 16) := by
  refine microStep_of_exec (by simp [h]) (h ▸ decode_load t) fun ports => ?_
  rw [exec_uWload ht, State.advance_eq, State.advance_eq]
  rfl

theorem microStep_expand (h : s.seq = ⟨.expand, t⟩) (ht : 16 ≤ t.val) :
    MicroStep s ((s.writeW t (expandedWord s.W t)).advance .expand t 63 .winit 0) := by
  refine microStep_of_exec (by simp [h]) (h ▸ decode_expand t) fun ports => ?_
  rw [exec_uWexp ht, State.advance_eq, State.advance_eq]
  rfl

theorem microStep_winit (h : s.seq = ⟨.winit, 0⟩) : MicroStep s ((s.writeWork s.H).goto .round 0) :=
  microStep_of_exec (by simp [h]) (h ▸ decode_winit 0) fun _ => exec_uWinit _

theorem microStep_round (h : s.seq = ⟨.round, t⟩) :
    MicroStep s ((s.writeWork (roundRegs s.r (readK t) (s.readW t))).advance .round t 63 .feed 0) := by
  refine microStep_of_exec (by simp [h]) (h ▸ decode_round t) fun ports => ?_
  rw [exec_uRound, State.advance_eq, State.advance_eq]
  rfl

theorem microStep_feed (h : s.seq = ⟨.feed, 0⟩) :
    MicroStep s ((((s.writeHash (feedForward s.H s.r)).setSession (sessionAfterFeed s)).clearLast).goto
      .idle 0) :=
  microStep_of_exec (by simp [h]) (h ▸ decode_feed 0) fun _ => exec_uFeed _

/-! ## The expander (41 R132) -/

/-- The sequencer after `n` of the 64 steps of the expander (44 R167). -/
def expanderSeq (n : Nat) : Seq :=
  if h : n < 64 then ⟨if n < 16 then .load else .expand, ⟨n, h⟩⟩ else ⟨.winit, 0⟩

theorem expanderSeq_load {n : Nat} (h : n < 16) : expanderSeq n = ⟨.load, ⟨n, by omega⟩⟩ := by
  simp [expanderSeq, h, show n < 64 by omega]

theorem expanderSeq_expand {n : Nat} (h : 16 ≤ n) (hn : n < 64) : expanderSeq n = ⟨.expand, ⟨n, hn⟩⟩ := by
  simp [expanderSeq, hn, show ¬ n < 16 by omega]

theorem expanderSeq_succ_load {n : Nat} (h : n < 16) : expanderSeq (n + 1) =
    if (⟨n, by omega⟩ : Index) = 15 then ⟨.expand, 16⟩ else ⟨.load, ⟨n, by omega⟩ + 1⟩ :=
  seq_eq_of_le_last (last := 15) (Nat.le_of_lt_succ h) (fun he => by subst he; rfl)
    fun hl => expanderSeq_load (Nat.succ_lt_succ hl)

theorem expanderSeq_succ_expand {n : Nat} (h : 16 ≤ n) (hn : n < 64) : expanderSeq (n + 1) =
    if (⟨n, hn⟩ : Index) = 63 then ⟨.winit, 0⟩ else ⟨.expand, ⟨n, hn⟩ + 1⟩ :=
  seq_eq_of_le_last (last := 63) (Nat.le_of_lt_succ hn) (fun he => by subst he; rfl)
    fun hl => expanderSeq_expand (Nat.le_succ_of_le h) (Nat.succ_lt_succ hl)

theorem scheduleEntry_load (b : Block) (w : Schedule) {t : Index} (h : t.val < 16) :
    scheduleEntry b w t = b[blockIndex t] := if_pos h

theorem scheduleEntry_expand (b : Block) (w : Schedule) {t : Index} (h : ¬ t.val < 16) :
    scheduleEntry b w t = expandedWord w t := if_neg h

/-- The state after `n` of the 64 steps of the expander from `s`. -/
def State.expanded (s : State) (n : Nat) : State :=
  { s with W := scheduleFrom s.W s.BLK n, seq := expanderSeq n }

theorem State.expanded_succ (s : State) {n : Nat} (hn : n < 64) : s.expanded (n + 1) =
    { (s.expanded n).writeW ⟨n, hn⟩ (scheduleEntry s.BLK (s.expanded n).W ⟨n, hn⟩) with
      seq := expanderSeq (n + 1) } := by
  simp only [State.expanded, State.writeW, scheduleFrom_succ s.W s.BLK hn]

theorem microStep_expanded (s : State) {n : Nat} (hn : n < 64) :
    MicroStep (s.expanded n) (s.expanded (n + 1)) := by
  rw [s.expanded_succ hn]
  by_cases h : n < 16
  · rw [scheduleEntry_load _ _ h, expanderSeq_succ_load h, ← State.advance_eq]
    exact microStep_load (s := s.expanded n) (expanderSeq_load h) (Nat.le_of_lt_succ h)
  · have h16 : 16 ≤ n := Nat.le_of_not_lt h
    rw [scheduleEntry_expand _ _ h, expanderSeq_succ_expand h16 hn, ← State.advance_eq]
    exact microStep_expand (s := s.expanded n) (expanderSeq_expand h16 hn) h16

/-- 41 R132, R133: the 64 steps of the expander compute `Expand(BLK)`. -/
theorem microSteps_expander (h : s.seq = ⟨.load, 0⟩) :
    MicroSteps 64 s { s with W := expand s.BLK, seq := ⟨.winit, 0⟩ } := by
  have hm := MicroSteps.of_path s.expanded fun k hk => microStep_expanded s hk
  have h0 : s.expanded 0 = s := congrArg (fun q => { s with seq := q }) h.symm
  have h64 : s.expanded 64 = { s with W := expand s.BLK, seq := ⟨.winit, 0⟩ } :=
    congrArg (fun w => { s with W := w, seq := ⟨.winit, 0⟩ }) (scheduleFrom_eq_expand s.W s.BLK)
  rwa [h0, h64] at hm

/-! ## The rounds (42 R143) -/

/-- The sequencer after `n` of the 64 rounds (44 R167). -/
def roundSeq (n : Nat) : Seq := if h : n < 64 then ⟨.round, ⟨n, h⟩⟩ else ⟨.feed, 0⟩

theorem roundSeq_of_lt {n : Nat} (h : n < 64) : roundSeq n = ⟨.round, ⟨n, h⟩⟩ := dif_pos h

theorem roundSeq_succ {n : Nat} (hn : n < 64) : roundSeq (n + 1) =
    if (⟨n, hn⟩ : Index) = 63 then ⟨.feed, 0⟩ else ⟨.round, ⟨n, hn⟩ + 1⟩ :=
  seq_eq_of_le_last (last := 63) (Nat.le_of_lt_succ hn) (fun he => by subst he; rfl)
    fun hl => roundSeq_of_lt (Nat.succ_lt_succ hl)

/-- The state after `U_WINIT` and `n` of the 64 rounds from `s`. -/
def State.rounded (s : State) (n : Nat) : State :=
  { s with r := roundsUpTo s.H s.W n, seq := roundSeq n }

theorem State.rounded_succ (s : State) {n : Nat} (hn : n < 64) : s.rounded (n + 1) =
    { (s.rounded n).writeWork (roundRegs (s.rounded n).r (readK ⟨n, hn⟩) ((s.rounded n).readW ⟨n, hn⟩)) with
      seq := roundSeq (n + 1) } := by
  simp only [State.rounded, State.writeWork, State.readW, roundsUpTo_succ s.H s.W hn, Fin.getElem_fin]

theorem microStep_rounded (s : State) {n : Nat} (hn : n < 64) :
    MicroStep (s.rounded n) (s.rounded (n + 1)) := by
  rw [s.rounded_succ hn, roundSeq_succ hn, ← State.advance_eq]
  exact microStep_round (s := s.rounded n) (roundSeq_of_lt hn)

/-- 42 R143: `U_WINIT` and the 64 rounds compute `Rounds(H, W)`. -/
theorem microSteps_rounds (h : s.seq = ⟨.winit, 0⟩) :
    MicroSteps 65 s { s with r := rounds s.H s.W, seq := ⟨.feed, 0⟩ } :=
  have hw : MicroSteps 1 s (s.rounded 0) := .snoc (.zero s) (microStep_winit h)
  hw.trans (MicroSteps.of_path s.rounded fun _ hk => microStep_rounded s hk)

/-! ## The whole block (44 R168) -/

/-- The state that the 130 micro-operations of a block leave, from `s` with the block latched. -/
def State.folded (s : State) : State :=
  { s with
    H := compress s.H s.BLK
    r := rounds s.H (expand s.BLK)
    W := expand s.BLK
    hs := sessionAfterFeed s
    seq := ⟨.idle, 0⟩
    lastQ := false }

@[simp] theorem State.folded_H (s : State) : s.folded.H = compress s.H s.BLK := rfl
@[simp] theorem State.folded_hs (s : State) : s.folded.hs = sessionAfterFeed s := rfl
@[simp] theorem State.folded_seq (s : State) : s.folded.seq = ⟨.idle, 0⟩ := rfl
@[simp] theorem State.folded_err (s : State) : s.folded.err = s.err := rfl
@[simp] theorem State.folded_errCode (s : State) : s.folded.errCode = s.errCode := rfl

/-- 44 R167, R168; 43 R153: the micro-operations of a block fold it into the hash state. -/
theorem microSteps_block (h : s.seq = ⟨.load, 0⟩) : MicroSteps Config.uopsPerBlock s s.folded :=
  ((microSteps_expander h).trans (microSteps_rounds rfl)).snoc (microStep_feed rfl)

end Sys2Proof.Machine
end

section
/-! PROOFS. A host that transfers the blocks of a message and reads its digest (45 R187, R188). -/

namespace Sys2Proof.Machine

/-! ## The host while the core is busy -/

/-- The action is held back until the core is in `IDLE`: a command (30 R91) or `RDDIGEST` (30 R103). -/
def HostAction.waitsForIdle : HostAction → Bool
  | .command _ _ => true
  | .rdDigest => true
  | .rdErr => false
  | .reset => false

/-- While a micro-operation runs, a host whose next action waits makes no progress. -/
theorem HostRun.hostStep_microStep {s s' : State} (h : MicroStep s s') {a : HostAction}
    (ha : a.waitsForIdle = true) (rest : List HostAction) (reads : List HostRead) :
    HostRun.hostStep ⟨{ s with inputs := [] }, a :: rest, reads⟩ =
      .next ⟨{ s' with inputs := [] }, a :: rest, reads⟩ := by
  obtain ⟨hp, hs⟩ := h
  have hready : State.cmdReady { s with inputs := [] } = false := decide_eq_false hp
  have hcore (p : PortIn) (hr : p.rst = false) :
      HostRun.coreStep ⟨{ s with inputs := [] }, a :: rest, reads⟩ p (a :: rest) =
        .next ⟨{ s' with inputs := [] }, a :: rest, reads⟩ :=
    HostRun.coreStep_next _ (hs [p] hr)
  cases a with
  | command code b =>
    simpa only [HostRun.hostStep, hready, Bool.false_eq_true, if_false] using hcore _ rfl
  | rdDigest => simpa only [HostRun.hostStep, hready] using hcore _ rfl
  | rdErr => cases ha
  | reset => cases ha

theorem HostRun.hostSteps_microSteps {n : Nat} {s s' : State} (h : MicroSteps n s s') {a : HostAction}
    (ha : a.waitsForIdle = true) (rest : List HostAction) (reads : List HostRead) :
    HostRun.hostSteps n ⟨{ s with inputs := [] }, a :: rest, reads⟩ =
      .next ⟨{ s' with inputs := [] }, a :: rest, reads⟩ := by
  induction h with
  | zero _ => rfl
  | snoc _ hs ih =>
    rw [HostRun.hostSteps_add ih, HostRun.hostSteps_succ (HostRun.hostStep_microStep hs ha rest reads)]
    rfl

/-- In `IDLE` a command is transferred at once, and the core makes its effect (30 R91). -/
theorem HostRun.hostStep_transfer {s t : State} {code : BitVec 2} {b : BitVec 512} (hp : s.seq.phase = .idle)
    (he : exec (decodeCmd code b) { s with inputs := [] } = .next t) (rest : List HostAction)
    (reads : List HostRead) :
    HostRun.hostStep ⟨s, .command code b :: rest, reads⟩ = .next ⟨t, rest, reads⟩ := by
  have hready : s.cmdReady = true := s.cmdReady_iff.2 hp
  simp only [HostRun.hostStep, hready, if_true]
  exact HostRun.coreStep_next _ ((step_transfer (s := s.present ⟨false, true, code, b⟩) rfl hp rfl).trans he)

/-! ## Between two commands of one message -/

/-- The core waits for a command, `H` being `h`, the session state `v` and no error recorded. -/
structure Idling (s : State) (h : Words8) (v : Session) : Prop where
  seq : s.seq = ⟨.idle, 0⟩
  hash : s.H = h
  hs : s.hs = v
  err : s.err = false
  errCode : s.errCode = .none

/-- 44 R162: the `INIT` opens a computation, whatever an earlier one left. -/
theorem HostRun.hostStep_init {s : State} (hq : s.seq = ⟨.idle, 0⟩) (b : BitVec 512) :
    ∃ t, Idling t initialHash .active ∧ ∀ rest reads,
      HostRun.hostStep ⟨s, .command 0b01#2 b :: rest, reads⟩ = .next ⟨t, rest, reads⟩ :=
  ⟨({ s with inputs := [] }.loadIV.setSession .active).clearError, ⟨hq, rfl, rfl, rfl, rfl⟩,
    HostRun.hostStep_transfer (s := s) (code := 0b01#2) (by rw [hq])
      ((decodeCmd_init b).symm ▸ exec_init _)⟩

/-- The code of `BLOCK` or of `BLOCK_LAST` (30 R93). -/
def blockCode (last : Bool) : BitVec 2 := if last then 0b11#2 else 0b10#2

theorem exec_blockCode_active {s : State} (hs : s.hs = .active) (last : Bool) (b : BitVec 512) :
    exec (decodeCmd (blockCode last) b) s = .next ((s.latchBlock b last).goto .load 0) := by
  rw [← acceptBlock_active hs]
  cases last with
  | false => exact exec_block b s
  | true => exact exec_blockLast b s

/-- The transfer of a block and its 130 micro-operations, while the host waits with its next action. -/
theorem HostRun.hostSteps_transfer_block {s : State} (hq : s.seq = ⟨.idle, 0⟩) (hs : s.hs = .active)
    (last : Bool) (b : BitVec 512) {a : HostAction} (ha : a.waitsForIdle = true) (rest : List HostAction)
    (reads : List HostRead) :
    HostRun.hostSteps (Config.uopsPerBlock + 1) ⟨s, .command (blockCode last) b :: a :: rest, reads⟩ =
      .next ⟨(({ s with inputs := [] }.latchBlock b last).goto .load 0).folded, a :: rest, reads⟩ := by
  have he := exec_blockCode_active (s := { s with inputs := [] }) hs last b
  rw [HostRun.hostSteps_succ (HostRun.hostStep_transfer (by rw [hq]) he (a :: rest) reads)]
  exact HostRun.hostSteps_microSteps (s := ({ s with inputs := [] }.latchBlock b last).goto .load 0)
    (microSteps_block rfl) ha rest reads

/-- 44 R168: a transferred block is folded into `H`, and the last one ends the computation. -/
theorem HostRun.hostSteps_block {s : State} {h : Words8} (hi : Idling s h .active) (last : Bool)
    (b : BitVec 512) {a : HostAction} (ha : a.waitsForIdle = true) (rest : List HostAction)
    (reads : List HostRead) :
    ∃ t, Idling t (compress h (blockWords b)) (if last then .done else .active) ∧
      HostRun.hostSteps 131 ⟨s, .command (blockCode last) b :: a :: rest, reads⟩ =
        .next ⟨t, a :: rest, reads⟩ := by
  obtain ⟨hq, rfl, hs, he, hc⟩ := hi
  refine ⟨_, ?_, HostRun.hostSteps_transfer_block hq hs last b ha rest reads⟩
  exact {
    seq := State.folded_seq _
    hash := by simp
    hs := by cases last <;> simp [sessionAfterFeed, hs]
    err := by simpa using he
    errCode := by simpa using hc }

/-- 43 R154: the blocks that are not the last are folded in, in order. -/
theorem HostRun.hostSteps_blocks {s : State} {h : Words8} (hi : Idling s h .active)
    (bs : List (BitVec 512)) {a : HostAction} (ha : a.waitsForIdle = true) (rest : List HostAction)
    (reads : List HostRead) :
    ∃ t, Idling t (foldBlocks h (bs.map blockWords)) .active ∧
      HostRun.hostSteps (131 * bs.length) ⟨s, bs.map (.command (blockCode false)) ++ a :: rest, reads⟩ =
        .next ⟨t, a :: rest, reads⟩ := by
  induction bs generalizing s h with
  | nil => exact ⟨s, hi, rfl⟩
  | cons b bs ih =>
    obtain ⟨m, hm, hb⟩ : ∃ m, Idling m (compress h (blockWords b)) .active ∧
        HostRun.hostSteps 131 ⟨s, (b :: bs).map (.command (blockCode false)) ++ a :: rest, reads⟩ =
          .next ⟨m, bs.map (.command (blockCode false)) ++ a :: rest, reads⟩ := by
      cases bs with
      | nil => exact HostRun.hostSteps_block hi false b ha rest reads
      | cons c cs => exact HostRun.hostSteps_block hi false b rfl _ reads
    obtain ⟨t, ht, hrun⟩ := ih hm
    refine ⟨t, ht, ?_⟩
    rw [List.length_cons, Nat.mul_succ, Nat.add_comm, HostRun.hostSteps_add hb, hrun]

/-! ## The whole message -/

/-- The blocks of a message before its last one. -/
def earlierBlocks (m : List Byte) : List (BitVec 512) :=
  (List.range (blockCount m.length - 1)).map (messageBlock m)

/-- The last block of a message. -/
def lastBlock (m : List Byte) : BitVec 512 := messageBlock m (blockCount m.length - 1)

theorem length_earlierBlocks (m : List Byte) : (earlierBlocks m).length + 1 = blockCount m.length := by
  simp [earlierBlocks, blockCount]

theorem messageBlocks_eq (m : List Byte) : messageBlocks m = earlierBlocks m ++ [lastBlock m] := by
  simp [messageBlocks, earlierBlocks, lastBlock, blockCount, List.range_succ]

theorem hashScript_eq (m : List Byte) : hashScript m = .command 0b01#2 0 ::
    ((earlierBlocks m).map (.command (blockCode false)) ++
      [.command (blockCode true) (lastBlock m), .rdDigest]) := by
  simp [hashScript, earlierBlocks, lastBlock, blockCode]

theorem computeDigest_eq (m : List Byte) : computeDigest m =
    compress (foldBlocks initialHash ((earlierBlocks m).map blockWords)) (blockWords (lastBlock m)) := by
  simp [computeDigest, digestOf, foldBlocks, messageBlocks_eq]

/-- Settles O56: `INIT`, the earlier blocks, the last block and the sample, one run after the other. -/
theorem hashScriptReadsTheDigest : Obligations.HashScriptReadsTheDigest := by
  intro s m hq _
  rw [hashScript_eq, computeDigest_eq, ← length_earlierBlocks]
  obtain ⟨s1, h1, hinit⟩ := HostRun.hostStep_init hq 0
  obtain ⟨s2, h2, hearlier⟩ := HostRun.hostSteps_blocks h1 (earlierBlocks m)
    (a := .command (blockCode true) (lastBlock m)) rfl [.rdDigest] []
  obtain ⟨s3, h3, hlast⟩ := HostRun.hostSteps_block h2 true (lastBlock m) (a := .rdDigest) rfl [] []
  have hread := HostRun.hostStep_rdDigest [] [] (by rw [h3.seq]) h3.hs
  rw [h3.hash] at hread
  have hsteps (k : Nat) : 2 + 131 * (k + 1) = 131 * k + 132 + 1 := by omega
  refine ⟨s3, ?_, h3.hs, h3.hash, h3.err, h3.seq⟩
  rw [hsteps]
  calc HostRun.hostSteps (131 * (earlierBlocks m).length + 132 + 1) _
      = HostRun.hostSteps (131 * (earlierBlocks m).length + 132) ⟨s1, _, []⟩ :=
        HostRun.hostSteps_succ (hinit _ _)
    _ = HostRun.hostSteps (131 + 1) ⟨s2, _, []⟩ := HostRun.hostSteps_add hearlier
    _ = HostRun.hostSteps (0 + 1) ⟨s3, _, []⟩ := HostRun.hostSteps_add hlast
    _ = .next ⟨s3, [], _⟩ := HostRun.hostSteps_succ hread

end Sys2Proof.Machine
end

section
/-! PROOFS. The rules about a step that every invariant below cites: the converse of `step_cases`, progress, what a
refused block does and where `advance` goes. -/

namespace Sys2Proof.Machine

variable {s s' : State}

/-! ## Transfers -/

theorem Transfer.idle {c : BitVec 2} (h : Transfer s c) : s.seq.phase = .idle := by
  obtain ⟨-, hready, -, -⟩ := h
  exact s.cmdReady_iff.1 hready

theorem Transfer.step_eq {c : BitVec 2} (h : Transfer s c) :
    step s = exec (decodeCmd c s.portsNow.block) s.afterPorts := by
  have hp := h.idle
  obtain ⟨hr, -, hv, rfl⟩ := h
  exact step_transfer hr hp hv

/-- The transfer of `StepCase.block` is that of a `BLOCK` or of a `BLOCK_LAST`. -/
theorem Transfer.block_or_blockLast {last : Bool} (h : Transfer s (if last then 0b11#2 else 0b10#2)) :
    Transfer s 0b10#2 ∨ Transfer s 0b11#2 := by
  cases last with
  | false => exact .inl h
  | true => exact .inr h

/-! ## The cases of a step are exactly its steps -/

theorem StepCase.step_eq (h : StepCase s s') : step s = .next s' := by
  cases h with
  | reset hr => exact step_reset hr
  | wait hr hp hv => exact step_wait hr hp hv
  | nop h => exact h.step_eq
  | init h => exact h.step_eq
  | block last h =>
    cases last with
    | false => exact h.step_eq
    | true => exact h.step_eq
  | load hr hp ht => rw [step_load hr hp, exec_uWload ht]; rfl
  | expand hr hp ht => rw [step_expand hr hp, exec_uWexp ht]; rfl
  | winit hr hp ht => rw [step_winit hr hp, ht, exec_uWinit]; rfl
  | round hr hp => rw [step_round hr hp, exec_uRound]; rfl
  | feed hr hp ht => rw [step_feed hr hp, ht, exec_uFeed]; rfl

/-- Progress (44 R169): where the index is legal in its phase, some case of a step applies. -/
theorem exists_stepCase (hl : s.seq.legal = true) : ∃ s', StepCase s s' := by
  cases hr : s.portsNow.rst with
  | true => exact ⟨_, .reset hr⟩
  | false =>
    cases hp : s.seq.phase with
    | idle =>
      cases hv : s.portsNow.cmdValid with
      | false => exact ⟨_, .wait hr hp hv⟩
      | true =>
        have ht : Transfer s s.portsNow.cmd := ⟨hr, s.cmdReady_iff.2 hp, hv, rfl⟩
        rcases cmd_cases s.portsNow.cmd with hc | hc | hc | hc
        · exact ⟨_, .nop (hc ▸ ht)⟩
        · exact ⟨_, .init (hc ▸ ht)⟩
        · exact ⟨_, .block false (hc ▸ ht)⟩
        · exact ⟨_, .block true (hc ▸ ht)⟩
    | load => exact ⟨_, .load hr hp (by simpa [Seq.legal, hp, legalLoad] using hl)⟩
    | expand => exact ⟨_, .expand hr hp (by simpa [Seq.legal, hp, legalExpand] using hl)⟩
    | winit => exact ⟨_, .winit hr hp (Fin.ext (by simpa [Seq.legal, hp, legalZero] using hl))⟩
    | round => exact ⟨_, .round hr hp⟩
    | feed => exact ⟨_, .feed hr hp (Fin.ext (by simpa [Seq.legal, hp, legalZero] using hl))⟩

/-! ## A block that is not accepted (60 R201, R204) -/

/-- The session state and the cause of a `SeqError` (60 R201). -/
def SeqErrorCause (v : Session) (c : ErrCode) : Prop :=
  (v = .empty ∧ c = .noInit) ∨ (v = .done ∧ c = .terminal)

theorem acceptBlock_refused (h : s.hs ≠ .active) (last : Bool) (b : BitVec 512) :
    ∃ c, SeqErrorCause s.hs c ∧ acceptBlock last b s = s.raiseSeqError c := by
  cases hs : s.hs with
  | empty => exact ⟨_, .inl ⟨rfl, rfl⟩, acceptBlock_empty hs last b⟩
  | active => exact absurd hs h
  | done => exact ⟨_, .inr ⟨rfl, rfl⟩, acceptBlock_done hs last b⟩

theorem State.raiseSeqError_of_err (h : s.err = true) (c : ErrCode) : s.raiseSeqError c = s := if_pos h

theorem State.raiseSeqError_of_not_err (h : s.err = false) (c : ErrCode) :
    s.raiseSeqError c = { s with err := true, errCode := c } := if_neg (by simp [h])

/-- 60 R204: "nothing else" than `err` and `err_code`. -/
theorem State.raiseSeqError_frame (s : State) (c : ErrCode) :
    s.raiseSeqError c =
      { s with err := (s.raiseSeqError c).err, errCode := (s.raiseSeqError c).errCode } := by
  unfold State.raiseSeqError; split <;> rfl

/-! ## Where `advance` goes -/

theorem State.advance_of_eq (s : State) (p : Phase) {t last : Index} (q : Phase) (n : Index) (h : t = last) :
    s.advance p t last q n = s.goto q n := if_pos h

theorem State.advance_of_lt (s : State) (p : Phase) {t last : Index} (q : Phase) (n : Index)
    (h : t.val < last.val) : s.advance p t last q n = s.goto p (t + 1) :=
  if_neg fun he => absurd (congrArg Fin.val he) (Nat.ne_of_lt h)

/-- A property of the state after `advance`, from the two ways it can go. -/
theorem State.advance_induction {P : State → Prop} {p q : Phase} {t last n : Index} (ht : t.val ≤ last.val)
    (hlast : t = last → P (s.goto q n))
    (hnext : t.val < last.val → (t + 1).val = t.val + 1 → P (s.goto p (t + 1))) :
    P (s.advance p t last q n) := by
  rcases Nat.lt_or_eq_of_le ht with hlt | heq
  · rw [State.advance_of_lt s p q n hlt]
    exact hnext hlt (index_val_add_one (by omega))
  · rw [State.advance_of_eq s p q n (Fin.ext heq)]
    exact hlast (Fin.ext heq)

end Sys2Proof.Machine
end

section
/-! PROOFS. The outputs and the reset values (10 R31, R32, R34; 20 R66). -/

namespace Sys2Proof.Machine

/-! ## The digest port -/

/-- A slice inside a slice is a slice. -/
theorem extractLsb'_extractLsb'_add {w : Nat} (x : BitVec w) {i j m n : Nat} (h : i + m ≤ n) :
    (x.extractLsb' j n).extractLsb' i m = x.extractLsb' (j + i) m := by
  ext k hk
  simp only [BitVec.getElem_extractLsb', BitVec.getLsbD_extractLsb', Nat.add_assoc,
    show i + k < n by omega, decide_true, Bool.true_and]

/-- 10 R32: `digest[255 - 32*j : 224 - 32*j] = H[j]`: the slice lies below the Words before `H[j]`, and then begins
where the Words after it end. -/
theorem digestPort_word (h : Words8) (j : Fin 8) : (digestPort h).extractLsb' (224 - 32 * j.val) 32 = h[j] := by
  fin_cases j <;> repeat refine (BitVec.extractLsb'_append_eq_of_add_le (by decide)).trans ?_
  pick_goal 8
  · exact BitVec.extractLsb'_eq_self
  all_goals exact BitVec.extractLsb'_append_eq_left

/-- 20 R66: byte `4*j + i` of the port is byte `i` of `H[j]`, most significant first. -/
theorem digestPort_byte (h : Words8) (j : Fin 8) (i : Fin 4) :
    digestByte (digestPort h) ⟨4 * j.val + i.val, by omega⟩ = (h[j]).extractLsb' (24 - 8 * i.val) 8 := by
  have hpos : 248 - 8 * (4 * j.val + i.val) = 224 - 32 * j.val + (24 - 8 * i.val) := by omega
  rw [← digestPort_word h j, extractLsb'_extractLsb'_add _ (by omega), ← hpos]
  rfl

theorem State.digest_of_done {s : State} (h : s.hs = .done) : s.outputs.digest = some (digestPort s.H) :=
  if_pos (s.digestValid_iff.2 h)

theorem State.digest_of_not_done {s : State} (h : s.hs ≠ .done) : s.outputs.digest = none :=
  if_neg fun hv => h (s.digestValid_iff.1 hv)

/-- Settles O19, Word by Word and byte by byte. -/
theorem digestPortShowsTheHash : Obligations.DigestPortShowsTheHash := fun s =>
  ⟨fun h => ⟨_, State.digest_of_done h, digestPort_word s.H, digestPort_byte s.H⟩, State.digest_of_not_done⟩

/-! ## The status outputs and the state right after reset -/

/-- 10 R35 (a): where no computation is in progress the sequencer waits. -/
theorem ControlInv.idle_of_not_active {s : State} (h : ControlInv s) (hs : s.hs ≠ .active) :
    s.seq.phase = .idle := by
  obtain ⟨hphase, -⟩ := h
  exact hphase.resolve_right hs

/-- Settles O18: in `DONE` the sequencer waits. -/
theorem statusOutputsFollowTheState : Obligations.StatusOutputsFollowTheState :=
  ⟨fun s => ⟨s.cmdReady_iff, s.digestValid_iff⟩, fun s h hv =>
    have hdone : s.hs = .done := s.digestValid_iff.1 hv
    s.cmdReady_iff.2 (h.idle_of_not_active (by simp [hdone]))⟩

/-- Settles O44: the fields of `State.reset` and its outputs, evaluated. -/
theorem resetStateHasTheSpecsValues : Obligations.ResetStateHasTheSpecsValues :=
  ⟨rfl, rfl, rfl, rfl, rfl, rfl⟩

end Sys2Proof.Machine
end

section
/-! PROOFS. The control and the error invariant (10 R35 (a) to (d); 95 section 3). -/

namespace Sys2Proof.Machine

variable {s s' : State}

/-! ## The control invariant (10 R35 (a) to (d)) -/

/-- During a computation the sequencer may go to any legal index of a phase that is not `IDLE`. -/
theorem ControlInv.goto (h : ControlInv s) (ha : s.hs = .active) {p : Phase} {n : Index}
    (hl : Seq.legal ⟨p, n⟩ = true) (hp : p ≠ .idle) : ControlInv (s.goto p n) := by
  obtain ⟨-, -, -, hnone, hcode⟩ := h
  exact ⟨.inr ha, hl, fun _ => hp, hnone, hcode⟩

/-- The sequencer inside a phase: legal up to `last`, and legal where it goes from there. -/
theorem ControlInv.advance (h : ControlInv s) (ha : s.hs = .active) {p q : Phase} {t last n : Index}
    (hp : p ≠ .idle) (hq : q ≠ .idle) (ht : t.val ≤ last.val) (hlast : Seq.legal ⟨q, n⟩ = true)
    (hnext : t.val < last.val → (t + 1).val = t.val + 1 → Seq.legal ⟨p, t + 1⟩ = true) :
    ControlInv (s.advance p t last q n) :=
  State.advance_induction ht (fun _ => h.goto ha hlast hq) fun hlt hval => h.goto ha (hnext hlt hval) hp

theorem ControlInv.raiseSeqError (h : ControlInv s) {v : Session} {c : ErrCode} (hc : SeqErrorCause v c) :
    ControlInv (s.raiseSeqError c) := by
  cases he : s.err with
  | true => rwa [State.raiseSeqError_of_err he]
  | false =>
    rw [State.raiseSeqError_of_not_err he]
    obtain ⟨hphase, hlegal, hlast, -, -⟩ := h
    exact ⟨hphase, hlegal, hlast, nofun, fun _ => hc.imp And.right And.right⟩

theorem ControlInv.acceptBlock (h : ControlInv s) (last : Bool) (b : BitVec 512) :
    ControlInv (acceptBlock last b s) := by
  by_cases ha : s.hs = .active
  · rw [acceptBlock_active ha]
    obtain ⟨-, -, -, hnone, hcode⟩ := h
    exact ⟨.inr (by simpa using ha), rfl, fun _ => nofun, by simpa using hnone, by simpa using hcode⟩
  · obtain ⟨c, hc, heq⟩ := acceptBlock_refused ha last b
    exact heq ▸ h.raiseSeqError hc

/-- 10 R35 (a): a micro-operation belongs to a computation in progress. -/
theorem ControlInv.active (h : ControlInv s) {p : Phase} (hp : s.seq.phase = p) (hb : p ≠ .idle) :
    s.hs = .active := by
  obtain ⟨hphase, -⟩ := h
  exact hphase.resolve_left (hp ▸ hb)

theorem ControlInv.stepCase (h : ControlInv s) (hs : StepCase s s') : ControlInv s' := by
  cases hs with
  | reset => exact ⟨.inl rfl, rfl, nofun, fun _ => rfl, nofun⟩
  | wait => exact h
  | nop => exact h
  | init ht =>
    obtain ⟨-, hlegal, hlast, -, -⟩ := h
    exact ⟨.inl ht.idle, hlegal, hlast, fun _ => rfl, nofun⟩
  | block last => exact ControlInv.acceptBlock (s := s.afterPorts) h last _
  | load _ hp ht =>
    refine ControlInv.advance (s := s.afterPorts.writeW _ _) h (h.active hp nofun) nofun nofun ht rfl
      fun hlt hval => ?_
    exact decide_eq_true (hval ▸ hlt)
  | expand _ hp ht =>
    refine ControlInv.advance (s := s.afterPorts.writeW _ _) h (h.active hp nofun) nofun nofun
      (Nat.le_of_lt_succ s.seq.t.isLt) rfl fun _ hval => ?_
    exact decide_eq_true (hval ▸ Nat.le_succ_of_le ht)
  | winit _ hp => exact ControlInv.goto (s := s.afterPorts.writeWork _) h (h.active hp nofun) rfl nofun
  | round _ hp =>
    exact ControlInv.advance (s := s.afterPorts.writeWork _) h (h.active hp nofun) nofun nofun
      (Nat.le_of_lt_succ s.seq.t.isLt) rfl fun _ _ => rfl
  | feed =>
    obtain ⟨-, -, -, hnone, hcode⟩ := h
    exact ⟨.inl rfl, rfl, nofun, hnone, hcode⟩

/-- Settles O46: a legal index leaves a case of the step, and every case keeps the invariant. -/
theorem everyStepKeepsTheControlInvariant : Obligations.EveryStepKeepsTheControlInvariant := by
  intro s h
  have hlegal : s.seq.legal = true := by
    obtain ⟨-, hl, -⟩ := h
    exact hl
  obtain ⟨s', hs⟩ := exists_stepCase hlegal
  exact ⟨s', hs.step_eq, h.stepCase hs⟩

/-! ## The error invariant (95 section 3) -/

theorem ErrorInv.not_err_of_active (h : ErrorInv s) (ha : s.hs = .active) : s.err = false := by
  refine Bool.eq_false_iff.2 fun he => ?_
  rcases h he with ⟨hs, -⟩ | ⟨hs, -⟩ <;> simp [ha] at hs

theorem ErrorInv.acceptBlock (h : ErrorInv s) (last : Bool) (b : BitVec 512) :
    ErrorInv (acceptBlock last b s) := by
  by_cases ha : s.hs = .active
  · rw [acceptBlock_active ha]
    simpa [ErrorInv] using h
  · obtain ⟨c, hc, heq⟩ := acceptBlock_refused ha last b
    rw [heq]
    cases he : s.err with
    | true => rwa [State.raiseSeqError_of_err he]
    | false =>
      rw [State.raiseSeqError_of_not_err he]
      exact fun _ => hc

/-- Settles O47: an error is recorded by a refused block only, and a computation in progress has none. -/
theorem everyStepKeepsTheErrorInvariant : Obligations.EveryStepKeepsTheErrorInvariant := by
  intro s s' hc h hs
  cases step_cases hs with
  | reset => exact nofun
  | wait => exact h
  | nop => exact h
  | init => exact nofun
  | block last => exact ErrorInv.acceptBlock (s := s.afterPorts) h last _
  | load => simpa [ErrorInv] using h
  | expand => simpa [ErrorInv] using h
  | winit => exact h
  | round => simpa [ErrorInv] using h
  | feed _ hp =>
    have hnone : s.err = false := h.not_err_of_active (hc.active hp nofun)
    exact fun he => absurd he (by simp [hnone])

end Sys2Proof.Machine
end

section
/-! PROOFS. What a step may change (10 R26, R32, R33; 44 R165, R166; 60 R206). -/

namespace Sys2Proof.Machine

variable {s s' : State}

/-! ## Only an `INIT` or a reset ends the error or a finished computation -/

/-- 60 R204: a recorded error stays, whatever block comes. -/
theorem acceptBlock_of_err (he : s.err = true) (last : Bool) (b : BitVec 512) :
    (acceptBlock last b s).err = true ∧ (acceptBlock last b s).errCode = s.errCode := by
  by_cases ha : s.hs = .active
  · simpa [acceptBlock_active ha] using he
  · obtain ⟨c, -, heq⟩ := acceptBlock_refused ha last b
    rw [heq, State.raiseSeqError_of_err he]
    exact ⟨he, rfl⟩

/-- Settles O51: no case but those of reset and `INIT` clears `err`. -/
theorem onlyInitAndResetClearTheError : Obligations.OnlyInitAndResetClearTheError := by
  intro s s' hs he hr hi
  cases step_cases hs with
  | reset h => simp [hr] at h
  | init h => exact absurd h hi
  | block last => exact acceptBlock_of_err (s := s.afterPorts) he last _
  | _ => simp [he]

theorem acceptBlock_eq_of_done (hd : s.hs = .done) (last : Bool) (b : BitVec 512) :
    acceptBlock last b s =
      { s with err := (acceptBlock last b s).err, errCode := (acceptBlock last b s).errCode } := by
  rw [acceptBlock_done hd]
  exact s.raiseSeqError_frame _

/-- Settles O20: in `DONE` the sequencer waits, and a block is refused. -/
theorem finishedDigestIsFrozen : Obligations.FinishedDigestIsFrozen := by
  intro s s' hc hd hr hi hs
  have hidle : s.seq.phase = .idle := hc.idle_of_not_active (by simp [hd])
  have hframe : s' = { s.afterPorts with err := s'.err, errCode := s'.errCode } := by
    cases step_cases hs with
    | reset h => simp [hr] at h
    | wait => rfl
    | nop => rfl
    | init h => exact absurd h hi
    | block last => exact acceptBlock_eq_of_done (s := s.afterPorts) hd last _
    | load _ hp | expand _ hp | winit _ hp | round _ hp | feed _ hp => simp [hidle] at hp
  refine ⟨hframe, ?_⟩
  rw [hframe]
  rfl

/-! ## The session state (44 R165) -/

/-- Settles O25, clause by clause. -/
theorem sessionStateTransitions : Obligations.SessionStateTransitions := by
  intro s s' hs
  refine ⟨fun hr => ?_, fun hi => ?_, fun hr hp hl => ?_, fun hr hi hf => ?_⟩
  · rw [step_reset hr] at hs
    exact Host.Outcome.next.inj hs ▸ rfl
  · rw [hi.step_eq] at hs
    exact Host.Outcome.next.inj hs ▸ rfl
  · rw [step_feed hr hp] at hs
    obtain ⟨-, rfl⟩ := exec_uFeed_next hs
    exact if_pos hl
  · cases step_cases hs with
    | reset h => simp [hr] at h
    | init h => exact absurd h hi
    | feed _ hp => exact if_neg fun hl => hf ⟨hp, hl⟩
    | _ => simp

/-! ## The writers of the data state (10 R33) -/

/-- A block changes `BLK` and `last_q` only where it is accepted. -/
theorem acceptBlock_active_of_ne {last : Bool} {b : BitVec 512}
    (h : (acceptBlock last b s).BLK ≠ s.BLK ∨ (acceptBlock last b s).lastQ ≠ s.lastQ) : s.hs = .active := by
  by_contra ha
  obtain ⟨c, -, heq⟩ := acceptBlock_refused ha last b
  simp [heq] at h

theorem H_writers (hs : StepCase s s') (hr : s.portsNow.rst = false) (hne : s'.H ≠ s.H) :
    Transfer s 0b01#2 ∨ s.seq.phase = .feed := by
  cases hs with
  | reset h => simp [hr] at h
  | init h => exact .inl h
  | feed _ hp => exact .inr hp
  | _ => simp at hne

theorem r_writers (hs : StepCase s s') (hr : s.portsNow.rst = false) (hne : s'.r ≠ s.r) :
    s.seq.phase = .winit ∨ s.seq.phase = .round := by
  cases hs with
  | reset h => simp [hr] at h
  | winit _ hp => exact .inl hp
  | round _ hp => exact .inr hp
  | _ => simp at hne

theorem index_eq_of_set_ne {w : Schedule} {t u : Index} {v : Word} (h : (w.set t v)[u] ≠ w[u]) : u = t := by
  by_contra hut
  exact h (Vector.getElem_set_ne t.isLt u.isLt fun he => hut (Fin.ext he.symm))

theorem W_writers (hs : StepCase s s') (hr : s.portsNow.rst = false) {u : Index} (hne : s'.W[u] ≠ s.W[u]) :
    (s.seq.phase = .load ∨ s.seq.phase = .expand) ∧ u = s.seq.t := by
  cases hs with
  | reset h => simp [hr] at h
  | load _ hp =>
    rw [State.advance_W, State.writeW_W] at hne
    exact ⟨.inl hp, index_eq_of_set_ne hne⟩
  | expand _ hp =>
    rw [State.advance_W, State.writeW_W] at hne
    exact ⟨.inr hp, index_eq_of_set_ne hne⟩
  | _ => simp at hne

theorem BLK_writers (hs : StepCase s s') (hr : s.portsNow.rst = false) (hne : s'.BLK ≠ s.BLK) :
    (Transfer s 0b10#2 ∨ Transfer s 0b11#2) ∧ s.hs = .active := by
  cases hs with
  | reset h => simp [hr] at h
  | block last h => exact ⟨h.block_or_blockLast, acceptBlock_active_of_ne (s := s.afterPorts) (.inl hne)⟩
  | _ => simp at hne

theorem lastQ_writers (hs : StepCase s s') (hr : s.portsNow.rst = false) (hne : s'.lastQ ≠ s.lastQ) :
    ((Transfer s 0b10#2 ∨ Transfer s 0b11#2) ∧ s.hs = .active) ∨ s.seq.phase = .feed := by
  cases hs with
  | reset h => simp [hr] at h
  | block last h => exact .inl ⟨h.block_or_blockLast, acceptBlock_active_of_ne (s := s.afterPorts) (.inr hne)⟩
  | feed _ hp => exact .inr hp
  | _ => simp at hne

/-- Settles O53, column by column. -/
theorem accessMatrixOfWriters : Obligations.AccessMatrixOfWriters := fun _ _ hs hr =>
  have hc := step_cases hs
  ⟨H_writers hc hr, r_writers hc hr, fun _ => W_writers hc hr, BLK_writers hc hr, lastQ_writers hc hr⟩

end Sys2Proof.Machine
end

section
/-! PROOFS. The written part of a schedule, and the data invariant (10 R35 (f); 41 R133; 42 R143). -/

namespace Sys2Proof.Machine

variable {s s' : State}

/-! ## Schedules that agree below an index -/

/-- The two schedules hold the same Words below index `n`. -/
def EqBelow (n : Nat) (w w' : Schedule) : Prop := ∀ i : Index, i.val < n → w[i] = w'[i]

theorem EqBelow.zero (w w' : Schedule) : EqBelow 0 w w' := nofun

theorem EqBelow.eq {w w' : Schedule} (h : EqBelow 64 w w') : w = w' := Vector.ext fun i hi => h ⟨i, hi⟩ hi

/-- The same Word written at `t` prolongs the agreement. -/
theorem EqBelow.set {w w' : Schedule} {t : Index} (h : EqBelow t.val w w') (v : Word) :
    EqBelow (t.val + 1) (w.set t v) (w'.set t v) := by
  intro i hi
  rw [Fin.getElem_fin, Fin.getElem_fin]
  by_cases hit : i.val = t.val
  · simp only [hit, Vector.getElem_set_self]
  · rw [Vector.getElem_set_ne _ _ (Ne.symm hit), Vector.getElem_set_ne _ _ (Ne.symm hit)]
    exact h i (by omega)

/-- 41 R133: the next entry prolongs a written part of `Expand(B)`. -/
theorem EqBelow.set_scheduleEntry {w : Schedule} {b : Block} {t : Index} (h : EqBelow t.val w (expand b)) :
    EqBelow (t.val + 1) (w.set t (scheduleEntry b w t)) (expand b) := by
  have hentry : scheduleEntry b w t = (expand b)[t] :=
    (scheduleEntry_congr b h).trans (expand_getElem b t).symm
  have hset := h.set (expand b)[t]
  rwa [Fin.getElem_fin, Vector.set_getElem_self, ← Fin.getElem_fin, ← hentry] at hset

/-! ## The data invariant, phase by phase -/

theorem dataInv_of_idle (h : s.seq.phase = .idle) : DataInv s := by simp [DataInv, h]

theorem dataInv_goto_load (n : Index) :
    DataInv (s.goto .load n) ↔ EqBelow n.val s.W (expand s.BLK) := by
  simp [DataInv, EqBelow]

theorem dataInv_goto_expand (n : Index) :
    DataInv (s.goto .expand n) ↔ EqBelow n.val s.W (expand s.BLK) := by
  simp [DataInv, EqBelow]

theorem dataInv_goto_winit (n : Index) : DataInv (s.goto .winit n) ↔ s.W = expand s.BLK := by
  simp [DataInv]

theorem dataInv_goto_round (n : Index) : DataInv (s.goto .round n) ↔
    s.W = expand s.BLK ∧ s.r = roundsUpTo s.H (expand s.BLK) n.val := by
  simp [DataInv]

theorem dataInv_goto_feed (n : Index) :
    DataInv (s.goto .feed n) ↔ s.r = rounds s.H (expand s.BLK) := by
  simp [DataInv]

theorem dataInv_acceptBlock (hp : s.seq.phase = .idle) (last : Bool) (b : BitVec 512) :
    DataInv (acceptBlock last b s) := by
  by_cases ha : s.hs = .active
  · rw [acceptBlock_active ha, dataInv_goto_load]
    exact EqBelow.zero _ _
  · obtain ⟨c, -, heq⟩ := acceptBlock_refused ha last b
    exact dataInv_of_idle (by rw [heq, State.raiseSeqError_seq, hp])

/-- `U_WLOAD` (41 R130) writes the entry of `Expand(BLK)` at its index. -/
theorem dataInv_load {t : Index} (ht : t.val ≤ 15) (h : EqBelow t.val s.W (expand s.BLK)) :
    DataInv ((s.writeW t (s.readBLK (blockIndex t))).advance .load t 15 .expand 16) := by
  have hset := h.set_scheduleEntry
  rw [scheduleEntry_load _ _ (Nat.lt_succ_of_le ht)] at hset
  refine State.advance_induction ht (fun he => ?_) fun _ hval => ?_
  · subst he
    exact (dataInv_goto_expand 16).2 hset
  · exact (dataInv_goto_load _).2 (hval ▸ hset)

/-- `U_WEXP` (41 R131) writes the entry of `Expand(BLK)` at its index. -/
theorem dataInv_expand {t : Index} (ht : 16 ≤ t.val) (h : EqBelow t.val s.W (expand s.BLK)) :
    DataInv ((s.writeW t (expandedWord s.W t)).advance .expand t 63 .winit 0) := by
  have hset := h.set_scheduleEntry
  rw [scheduleEntry_expand _ _ (Nat.not_lt_of_le ht)] at hset
  refine State.advance_induction (Nat.le_of_lt_succ t.isLt) (fun he => ?_) fun _ hval => ?_
  · subst he
    exact (dataInv_goto_winit 0).2 hset.eq
  · exact (dataInv_goto_expand _).2 (hval ▸ hset)

/-- `U_ROUND` (42 R142) makes one more of the rounds of `Rounds(H, Expand(BLK))`. -/
theorem dataInv_round {t : Index} (hw : s.W = expand s.BLK) (hr : s.r = roundsUpTo s.H (expand s.BLK) t.val) :
    DataInv ((s.writeWork (roundRegs s.r (readK t) (s.readW t))).advance .round t 63 .feed 0) := by
  have hregs : roundRegs s.r (readK t) (s.readW t) = roundsUpTo s.H (expand s.BLK) (t.val + 1) := by
    rw [roundsUpTo_succ _ _ t.isLt, hr, State.readW, hw, Fin.getElem_fin]
  rw [hregs]
  refine State.advance_induction (Nat.le_of_lt_succ t.isLt) (fun he => ?_) fun _ hval => ?_
  · subst he
    exact (dataInv_goto_feed 0).2 rfl
  · exact (dataInv_goto_round _).2 ⟨hw, by rw [hval]; rfl⟩

/-- Settles O48: each micro-operation reads what the invariant says, and writes what it says of the next phase. -/
theorem everyStepKeepsTheDataInvariant : Obligations.EveryStepKeepsTheDataInvariant := by
  intro s s' h hs
  obtain ⟨hload, hexpand, hwinit, hround, -⟩ := h
  cases step_cases hs with
  | reset => exact dataInv_of_idle rfl
  | wait _ hp => exact dataInv_of_idle hp
  | nop ht => exact dataInv_of_idle ht.idle
  | init ht => exact dataInv_of_idle ht.idle
  | block last ht => exact dataInv_acceptBlock (s := s.afterPorts) ht.idle last _
  | load _ hp ht => exact dataInv_load (s := s.afterPorts) ht (hload hp)
  | expand _ hp ht => exact dataInv_expand (s := s.afterPorts) ht (hexpand hp)
  | winit _ hp => exact (dataInv_goto_round 0).2 ⟨hwinit hp, rfl⟩
  | round _ hp =>
    obtain ⟨hw, hr⟩ := hround hp
    exact dataInv_round (s := s.afterPorts) hw hr
  | feed => exact dataInv_of_idle rfl

/-- Settles O45: reset leaves the sequencer in `IDLE` and no error. -/
theorem invariantsHoldAtReset : Obligations.InvariantsHoldAtReset :=
  ⟨⟨.inl rfl, rfl, nofun, fun _ => rfl, nofun⟩, nofun, dataInv_of_idle rfl⟩

end Sys2Proof.Machine
end

section
/-! PROOFS. No unwritten or stale Word is observed (10 R35 (e), (f), R36, R38): a step takes two states that agree
to two states that agree. -/

namespace Sys2Proof.Machine

variable {s s' : State}

/-! ## The control state and the ports, the data Words left out -/

/-- `s` with every data Word, and the model's count of draws, at zero. -/
def State.bare (s : State) : State :=
  { s with
    H := State.reset.H
    r := State.reset.r
    W := State.reset.W
    BLK := State.reset.BLK
    draws := 0 }

@[simp] theorem State.bare_raiseSeqError (s : State) (c : ErrCode) :
    (s.raiseSeqError c).bare = s.bare.raiseSeqError c := by
  cases he : s.err with
  | true => rw [State.raiseSeqError_of_err he, State.raiseSeqError_of_err (s := s.bare) he]
  | false =>
    rw [State.raiseSeqError_of_not_err he, State.raiseSeqError_of_not_err (s := s.bare) he]
    rfl

theorem Agree.bare (a : Agree s s') : s.bare = s'.bare := by
  obtain ⟨hhs, hseq, hlast, herr, hcode, hin, -⟩ := a
  simp only [State.bare, hhs, hseq, hlast, herr, hcode, hin]

/-! ## What agreement asks in each phase -/

/-- In `IDLE` no scratch Word is written, so only `H` counts. -/
theorem agree_of_idle (h : s.bare = s'.bare) (hp : s.seq.phase = .idle) (hH : s.hs ≠ .empty → s.H = s'.H) :
    Agree s s' where
  hs := (congrArg State.hs h :)
  seq := (congrArg State.seq h :)
  lastQ := (congrArg State.lastQ h :)
  err := (congrArg State.err h :)
  errCode := (congrArg State.errCode h :)
  inputs := (congrArg State.inputs h :)
  hash := hH
  load hq := by simp [hp] at hq
  expand hq := by simp [hp] at hq
  winit hq := by simp [hp] at hq
  round hq := by simp [hp] at hq
  feed hq := by simp [hp] at hq

/-- Where the sequencer goes, the data that this phase reads must agree. -/
theorem agree_goto {p : Phase} {n : Index} (h : s.bare = s'.bare) (hH : s.H = s'.H)
    (hload : p = .load → s.BLK = s'.BLK ∧ EqBelow n.val s.W s'.W)
    (hexpand : p = .expand → EqBelow n.val s.W s'.W) (hwinit : p = .winit → s.W = s'.W)
    (hround : p = .round → s.W = s'.W ∧ s.r = s'.r) (hfeed : p = .feed → s.r = s'.r) :
    Agree (s.goto p n) (s'.goto p n) where
  hs := (congrArg State.hs h :)
  seq := rfl
  lastQ := (congrArg State.lastQ h :)
  err := (congrArg State.err h :)
  errCode := (congrArg State.errCode h :)
  inputs := (congrArg State.inputs h :)
  hash _ := hH
  load := hload
  expand := hexpand
  winit := hwinit
  round := hround
  feed := hfeed

theorem agree_advance {p q : Phase} {t last n : Index} (ht : t.val ≤ last.val)
    (hlast : t = last → Agree (s.goto q n) (s'.goto q n))
    (hnext : (t + 1).val = t.val + 1 → Agree (s.goto p (t + 1)) (s'.goto p (t + 1))) :
    Agree (s.advance p t last q n) (s'.advance p t last q n) := by
  rcases Nat.lt_or_eq_of_le ht with hlt | heq
  · rw [State.advance_of_lt s p q n hlt, State.advance_of_lt s' p q n hlt]
    exact hnext (index_val_add_one (by omega))
  · rw [State.advance_of_eq s p q n (Fin.ext heq), State.advance_of_eq s' p q n (Fin.ext heq)]
    exact hlast (Fin.ext heq)

/-! ## Each case of a step keeps agreement -/

theorem Agree.portsNow (a : Agree s s') : s.portsNow = s'.portsNow :=
  congrArg (fun ports : List PortIn => ports.headD PortIn.quiet) a.inputs

theorem Agree.transfer (a : Agree s s') {c : BitVec 2} (h : Transfer s c) : Transfer s' c := by
  have hp : s'.seq.phase = .idle := a.seq ▸ h.idle
  obtain ⟨hr, -, hv, hc⟩ := h
  rw [a.portsNow] at hr hv hc
  exact ⟨hr, s'.cmdReady_iff.2 hp, hv, hc⟩

theorem Agree.afterPorts (a : Agree s s') : Agree s.afterPorts s'.afterPorts :=
  { a with inputs := congrArg List.tail a.inputs }

theorem Agree.init (a : Agree s s') (hp : s.seq.phase = .idle) :
    Agree ((s.loadIV.setSession .active).clearError) ((s'.loadIV.setSession .active).clearError) :=
  agree_of_idle (congrArg (fun m => (m.setSession .active).clearError) a.bare) hp fun _ => rfl

theorem Agree.acceptBlock (a : Agree s s') (hp : s.seq.phase = .idle) (last : Bool) (b : BitVec 512) :
    Agree (acceptBlock last b s) (acceptBlock last b s') := by
  cases hs : s.hs with
  | active =>
    rw [acceptBlock_active hs, acceptBlock_active (a.hs ▸ hs)]
    have hlatch : (s.latchBlock b last).bare = (s'.latchBlock b last).bare :=
      congrArg (fun m => { m with lastQ := last }) a.bare
    have hH : s.H = s'.H := a.hash (by simp [hs])
    exact agree_goto hlatch (by simpa using hH) (fun _ => ⟨by simp, EqBelow.zero _ _⟩) nofun nofun nofun nofun
  | empty =>
    rw [acceptBlock_empty hs, acceptBlock_empty (a.hs ▸ hs)]
    exact agree_of_idle (by simp [a.bare]) (by simp [hp]) (by simpa using a.hash)
  | done =>
    rw [acceptBlock_done hs, acceptBlock_done (a.hs ▸ hs)]
    exact agree_of_idle (by simp [a.bare]) (by simp [hp]) (by simpa using a.hash)

theorem Agree.uWload (a : Agree s s') (hH : s.H = s'.H) {t : Index} (hq : s.seq = ⟨.load, t⟩)
    (ht : t.val ≤ 15) :
    Agree ((s.writeW t (s.readBLK (blockIndex t))).advance .load t 15 .expand 16)
      ((s'.writeW t (s'.readBLK (blockIndex t))).advance .load t 15 .expand 16) := by
  obtain ⟨hblk, hw⟩ := a.load (by rw [hq])
  rw [hq] at hw
  have hset : EqBelow (t.val + 1) (s.W.set t (s.readBLK (blockIndex t))) (s'.W.set t (s.readBLK (blockIndex t))) :=
    EqBelow.set hw _
  rw [show s'.readBLK (blockIndex t) = s.readBLK (blockIndex t) from congrArg (·[blockIndex t]) hblk.symm]
  refine agree_advance ht (fun he => ?_) fun hval => ?_
  · subst he
    exact agree_goto a.bare hH nofun (fun _ => hset) nofun nofun nofun
  · exact agree_goto a.bare hH (fun _ => ⟨hblk, hval ▸ hset⟩) nofun nofun nofun nofun

theorem Agree.uWexp (a : Agree s s') (hH : s.H = s'.H) {t : Index} (hq : s.seq = ⟨.expand, t⟩)
    (ht : 16 ≤ t.val) :
    Agree ((s.writeW t (expandedWord s.W t)).advance .expand t 63 .winit 0)
      ((s'.writeW t (expandedWord s'.W t)).advance .expand t 63 .winit 0) := by
  have hw := a.expand (by rw [hq])
  rw [hq] at hw
  have hset : EqBelow (t.val + 1) (s.W.set t (expandedWord s.W t)) (s'.W.set t (expandedWord s.W t)) :=
    EqBelow.set hw _
  rw [← expandedWord_congr ht hw]
  refine agree_advance (Nat.le_of_lt_succ t.isLt) (fun he => ?_) fun hval => ?_
  · subst he
    exact agree_goto a.bare hH nofun nofun (fun _ => hset.eq) nofun nofun
  · exact agree_goto a.bare hH nofun (fun _ => hval ▸ hset) nofun nofun nofun

theorem Agree.uWinit (a : Agree s s') (hH : s.H = s'.H) (hp : s.seq.phase = .winit) :
    Agree ((s.writeWork s.H).goto .round 0) ((s'.writeWork s'.H).goto .round 0) :=
  agree_goto a.bare hH nofun nofun nofun (fun _ => ⟨a.winit hp, hH⟩) nofun

theorem Agree.uRound (a : Agree s s') (hH : s.H = s'.H) (hp : s.seq.phase = .round) (t : Index) :
    Agree ((s.writeWork (roundRegs s.r (readK t) (s.readW t))).advance .round t 63 .feed 0)
      ((s'.writeWork (roundRegs s'.r (readK t) (s'.readW t))).advance .round t 63 .feed 0) := by
  obtain ⟨hw, hr⟩ := a.round hp
  have hregs : roundRegs s.r (readK t) (s.readW t) = roundRegs s'.r (readK t) (s'.readW t) := by
    rw [State.readW, State.readW, hw, hr]
  exact agree_advance (Nat.le_of_lt_succ t.isLt)
    (fun _ => agree_goto a.bare hH nofun nofun nofun nofun fun _ => hregs)
    fun _ => agree_goto a.bare hH nofun nofun nofun (fun _ => ⟨hw, hregs⟩) nofun

theorem Agree.uFeed (a : Agree s s') (hH : s.H = s'.H) (hp : s.seq.phase = .feed) :
    Agree ((((s.writeHash (feedForward s.H s.r)).setSession (sessionAfterFeed s)).clearLast).goto .idle 0)
      ((((s'.writeHash (feedForward s'.H s'.r)).setSession (sessionAfterFeed s')).clearLast).goto .idle 0) :=
  agree_of_idle (congrArg (fun m => ((m.setSession (sessionAfterFeed m)).clearLast).goto .idle 0) a.bare) rfl
    fun _ => congrArg₂ feedForward hH (a.feed hp)

/-- Every step of `s` is matched by a step of `s'` of the same kind, and the states reached agree. -/
theorem Agree.stepCase (a : Agree s s') (hc : ControlInv s) {t : State} (h : StepCase s t) :
    ∃ t', StepCase s' t' ∧ Agree t t' := by
  have hport := a.portsNow
  have hseq := a.seq
  have hH {p : Phase} (hp : s.seq.phase = p) (hb : p ≠ .idle) : s.H = s'.H :=
    a.hash (by simp [hc.active hp hb])
  cases h with
  | reset hr =>
    exact ⟨_, .reset (hport ▸ hr), agree_of_idle (congrArg (fun m => m.afterPorts.resetEdge.bare) a.bare) rfl
      fun he => absurd rfl he⟩
  | wait hr hp hv => exact ⟨_, .wait (hport ▸ hr) (hseq ▸ hp) (hport ▸ hv), a.afterPorts⟩
  | nop ht => exact ⟨_, .nop (a.transfer ht), a.afterPorts⟩
  | init ht => exact ⟨_, .init (a.transfer ht), a.afterPorts.init ht.idle⟩
  | block last ht =>
    exact ⟨_, .block last (a.transfer ht), hport ▸ a.afterPorts.acceptBlock ht.idle last s.portsNow.block⟩
  | load hr hp ht =>
    exact ⟨_, .load (hport ▸ hr) (hseq ▸ hp) (hseq ▸ ht),
      hseq ▸ a.afterPorts.uWload (hH hp nofun) (hp ▸ rfl) ht⟩
  | expand hr hp ht =>
    exact ⟨_, .expand (hport ▸ hr) (hseq ▸ hp) (hseq ▸ ht),
      hseq ▸ a.afterPorts.uWexp (hH hp nofun) (hp ▸ rfl) ht⟩
  | winit hr hp ht =>
    exact ⟨_, .winit (hport ▸ hr) (hseq ▸ hp) (hseq ▸ ht), a.afterPorts.uWinit (hH hp nofun) hp⟩
  | round hr hp =>
    exact ⟨_, .round (hport ▸ hr) (hseq ▸ hp), hseq ▸ a.afterPorts.uRound (hH hp nofun) hp s.seq.t⟩
  | feed hr hp ht =>
    exact ⟨_, .feed (hport ▸ hr) (hseq ▸ hp) (hseq ▸ ht), a.afterPorts.uFeed (hH hp nofun) hp⟩

/-- The digest port shows `H` in `DONE` only, where the two states agree on it. -/
theorem Agree.outputs (a : Agree s s') : s.outputs = s'.outputs := by
  have hdigest : s.outputs.digest = s'.outputs.digest := by
    by_cases hd : s.hs = .done
    · rw [State.digest_of_done hd, State.digest_of_done (a.hs ▸ hd), a.hash (by simp [hd])]
    · rw [State.digest_of_not_done hd, State.digest_of_not_done (a.hs ▸ hd)]
  have hbare : s.bare.outputs = s'.bare.outputs := congrArg State.outputs a.bare
  calc s.outputs
      = { s.bare.outputs with digest := s.outputs.digest } := rfl
    _ = { s'.bare.outputs with digest := s'.outputs.digest } := by rw [hbare, hdigest]
    _ = s'.outputs := rfl

/-- Settles O49: agreeing states show the same outputs, and agreement is a simulation. -/
theorem noStaleWordIsEverRead : Obligations.NoStaleWordIsEverRead := by
  intro s s' a hc
  refine ⟨a.outputs, fun t ht => ?_⟩
  obtain ⟨t', hs', hagree⟩ := a.stepCase hc (step_cases ht)
  exact ⟨t', hs'.step_eq, hagree⟩

end Sys2Proof.Machine
end

section
/-! PROOFS. The block port and the last block of a message (20 R64, R65; 30 R95; 45 R183). -/

namespace Sys2Proof.Machine

/-! ## Words and bytes cut from the port -/

theorem blockWords_getElem (b : BitVec 512) (i : Fin 16) : (blockWords b)[i] = blockWord b i :=
  Vector.getElem_ofFn i.isLt

/-- 20 R64: four adjacent bytes, the earliest most significant, are the slice of the Word. -/
theorem blockWord_eq_bytes (b : BitVec 512) (i : Fin 16) :
    blockWord b i = blockByte b ⟨4 * i.val, by omega⟩ ++ (blockByte b ⟨4 * i.val + 1, by omega⟩ ++
      (blockByte b ⟨4 * i.val + 2, by omega⟩ ++ blockByte b ⟨4 * i.val + 3, by omega⟩)) := by
  simp only [blockByte]
  rw [BitVec.extractLsb'_append_extractLsb'_eq_extractLsb' (by omega),
    BitVec.extractLsb'_append_extractLsb'_eq_extractLsb' (by omega),
    BitVec.extractLsb'_append_extractLsb'_eq_extractLsb' (by omega), blockWord,
    show 480 - 32 * i.val = 504 - 8 * (4 * i.val + 3) by omega]

/-! ## The port built from bytes -/

/-- One more byte of the message shifts the earlier ones up and fills the lowest byte. -/
theorem blockPort_append_singleton (p : List Byte) (x : Byte) :
    blockPort (p ++ [x]) = (blockPort p <<< 8) ||| x.setWidth 512 :=
  List.foldl_append

theorem low_byte_of_shiftLeft_or (a : BitVec 512) (x : Byte) :
    ((a <<< 8) ||| x.setWidth 512).extractLsb' 0 8 = x := by
  ext i hi
  have hlt : i < 512 := by omega
  simp [hi, hlt]

theorem higher_byte_of_shiftLeft_or (a : BitVec 512) (x : Byte) {i : Nat} (h : i + 16 ≤ 512) :
    ((a <<< 8) ||| x.setWidth 512).extractLsb' (i + 8) 8 = a.extractLsb' i 8 := by
  ext j hj
  have hlt : i + 8 + j < 512 := by omega
  have hge : ¬ i + 8 + j < 8 := by omega
  have hsub : i + 8 + j - 8 = i + j := by omega
  have hbyte : x.getLsbD (i + 8 + j) = false := BitVec.getLsbD_of_ge x _ (by omega)
  simp [hlt, hge, hsub, hbyte, ← BitVec.getLsbD_eq_getElem]

/-- Counted from its low end, the port shows the bytes from the last one on. -/
theorem blockPort_byte_from_end (p : List Byte) {i : Nat} (hi : i < p.length) (h64 : i < 64) :
    (blockPort p).extractLsb' (8 * i) 8 = p.reverse[i]'(by simpa using hi) := by
  induction p using List.reverseRecOn generalizing i with
  | nil => exact absurd hi (Nat.not_lt_zero i)
  | append_singleton p x ih =>
    rw [blockPort_append_singleton]
    cases i with
    | zero => simpa using low_byte_of_shiftLeft_or _ x
    | succ k =>
      rw [Nat.mul_succ, higher_byte_of_shiftLeft_or _ x (by omega), ih (by simpa using hi) (by omega)]
      simp

/-- 20 R65: `p[k] = block[511 - 8*k : 504 - 8*k]`. -/
theorem blockByte_blockPort {p : List Byte} (hp : p.length = 64) (k : Fin 64) :
    blockByte (blockPort p) k = p[k]! := by
  have hk : k.val < p.length := by omega
  have hpos : 504 - 8 * k.val = 8 * (63 - k.val) := by omega
  have hidx : 63 - (63 - k.val) = k.val := by omega
  calc blockByte (blockPort p) k
      = (blockPort p).extractLsb' (8 * (63 - k.val)) 8 := by rw [blockByte, hpos]
    _ = p.reverse[63 - k.val]'(by rw [List.length_reverse]; omega) :=
        blockPort_byte_from_end p (by omega) (by omega)
    _ = p[k] := by simp [hp, hidx]
    _ = p[k]! := (getElem!_pos p k hk).symm

/-- Settles O17: the slices, the four bytes of each, and the port built from bytes. -/
theorem blockPortCarriesBytesInOrder : Obligations.BlockPortCarriesBytesInOrder :=
  ⟨blockWords_getElem, fun b i => (blockWords_getElem b i).trans (blockWord_eq_bytes b i),
    fun _ hp k => blockByte_blockPort hp k⟩

/-! ## The length field -/

theorem length_lengthField (n : Nat) : (lengthField n).length = 8 := rfl

/-- 45 R183: most significant byte first, so byte `i` from the end is byte `i` of the number `8 * n`. -/
theorem lengthField_byte_from_end (n : Nat) {i : Nat} (h : i < (lengthField n).reverse.length) :
    (lengthField n).reverse[i] = BitVec.ofNat 8 ((8 * n) >>> (8 * i)) := by
  rw [List.length_reverse, length_lengthField] at h
  have hshift : 56 - 8 * (7 - i) = 8 * i := by omega
  simp [lengthField, hshift]

/-- A port whose last eight bytes are the length field ends in the bit length: bit `j` of the port is bit `j % 8` of
byte `j / 8` from the end. -/
theorem blockPort_append_lengthField (q : List Byte) (n : Nat) :
    (blockPort (q ++ lengthField n)).extractLsb' 0 64 = BitVec.ofNat 64 (8 * n) := by
  refine BitVec.eq_of_getLsbD_eq fun j hj => ?_
  have hi : j / 8 < 8 := by omega
  have hbyte := blockPort_byte_from_end (q ++ lengthField n) (i := j / 8)
    (by rw [List.length_append, length_lengthField]; omega) (by omega)
  simp only [List.reverse_append] at hbyte
  rw [List.getElem_append_left (by simpa [length_lengthField] using hi), lengthField_byte_from_end] at hbyte
  have hmod : j % 8 < 8 := Nat.mod_lt j (by decide)
  have hbit := congrArg (·.getLsbD (j % 8)) hbyte
  simpa only [BitVec.getLsbD_extractLsb', BitVec.getLsbD_ofNat, Nat.testBit_shiftRight, Nat.div_add_mod, hmod, hj,
    Nat.zero_add, decide_true, Bool.true_and] using hbit

/-! ## The last block of a message -/

/-- 45 R183: the padded string before its length field. -/
def padBeforeLength (m : List Byte) : List Byte := m ++ 0x80#8 :: List.replicate (zeroBytes m.length) 0#8

theorem pad_eq (m : List Byte) : pad m = padBeforeLength m ++ lengthField m.length := by
  simp [pad, padBeforeLength]

/-- 45 R184: with its length field the padded string fills `blockCount` blocks. -/
theorem length_padBeforeLength (m : List Byte) :
    (padBeforeLength m).length = 64 * (blockCount m.length - 1) + 56 := by
  simp only [padBeforeLength, List.length_append, List.length_cons, List.length_replicate, zeroBytes, blockCount]
  omega

theorem lastBlock_eq_blockPort (m : List Byte) : lastBlock m =
    blockPort ((padBeforeLength m).drop (64 * (blockCount m.length - 1)) ++ lengthField m.length) := by
  have hlen := length_padBeforeLength m
  rw [lastBlock, messageBlock, pad_eq, List.drop_append_of_le_length (by omega), List.take_of_length_le]
  rw [List.length_append, List.length_drop, length_lengthField]
  omega

/-- The two last Words are the halves of the port's 64 low bits. -/
theorem blockWords_last_two (b : BitVec 512) :
    (blockWords b)[14].toNat * 2 ^ 32 + (blockWords b)[15].toNat = (b.extractLsb' 0 64).toNat := by
  have h14 : (blockWords b)[14] = b.extractLsb' 32 32 := blockWords_getElem b 14
  have h15 : (blockWords b)[15] = b.extractLsb' 0 32 := blockWords_getElem b 15
  simp only [h14, h15, BitVec.extractLsb'_toNat, Nat.shiftRight_eq_div_pow]
  omega

/-- Settles O55: the length field ends the last block, and `8 * N` fits in its 64 bits. -/
theorem lastBlockCarriesTheBitLength : Obligations.LastBlockCarriesTheBitLength := by
  intro m hm
  have hfit : 8 * m.length < 2 ^ 64 := by
    rw [messageLimit] at hm
    omega
  calc _ = ((lastBlock m).extractLsb' 0 64).toNat := blockWords_last_two _
    _ = (BitVec.ofNat 64 (8 * m.length)).toNat := by rw [lastBlock_eq_blockPort, blockPort_append_lengthField]
    _ = 8 * m.length := Nat.mod_eq_of_lt hfit

end Sys2Proof.Machine
end

section
/-! PROOFS. The fused design (20 R73; 41 R134 (a)): its window holds the coming Words of the schedule. -/

namespace Sys2Proof.Machine

/-- Before round `n` the window holds `W[n..n+15]` of `Expand(B)`, as far as the schedule goes. -/
def WindowHolds (b : Block) (n : Nat) (v : Block) : Prop :=
  ∀ (i : Nat) (hi : i < 16) (hn : n + i < 64), v[i] = (expand b)[n + i]

theorem expand_getElem_of_lt (b : Block) {i : Nat} (hi : i < 16) : (expand b)[i] = b[i] := by
  have hentry := expand_getElem b ⟨i, by omega⟩
  rw [scheduleEntry_load _ _ hi] at hentry
  simpa [blockIndex_val (t := ⟨i, by omega⟩) hi] using hentry

/-- 41 R131, with the four sources counted from the oldest Word of the window. -/
theorem expand_getElem_add_sixteen (b : Block) {n : Nat} (hn : n + 16 < 64) :
    (expand b)[n + 16] = add32 (add32 (add32 (sig1 (expand b)[n + 14]) (expand b)[n + 9])
      (sig0 (expand b)[n + 1])) (expand b)[n] := by
  have hentry := expand_getElem b ⟨n + 16, hn⟩
  rwa [scheduleEntry_expand _ _ (by simp)] at hentry

theorem windowHolds_zero (b : Block) : WindowHolds b 0 b := fun i hi _ => by
  simpa using (expand_getElem_of_lt b hi).symm

theorem windowShift_getElem_of_lt (v : Block) {i : Nat} (hi : i < 15) : (windowShift v)[i] = v[i + 1] := by
  interval_cases i <;> rfl

theorem windowShift_getElem_last (v : Block) : (windowShift v)[15] = windowNext v := rfl

theorem WindowHolds.next_eq {b v : Block} {n : Nat} (h : WindowHolds b n v) (hn : n + 16 < 64) :
    windowNext v = (expand b)[n + 16] := by
  rw [expand_getElem_add_sixteen b hn, windowNext, h 14 (by omega) (by omega), h 9 (by omega) (by omega),
    h 1 (by omega) (by omega), h 0 (by omega) (by omega)]
  rfl

/-- 41 R134 (a): the window drops `W[n]` and admits `W[n+16]`. -/
theorem WindowHolds.shift {b v : Block} {n : Nat} (h : WindowHolds b n v) :
    WindowHolds b (n + 1) (windowShift v) := by
  intro i hi hn
  rcases Nat.lt_or_eq_of_le (Nat.le_of_lt_succ hi) with hlt | rfl
  · rw [windowShift_getElem_of_lt v hlt, h (i + 1) (by omega) (by omega)]
    simp only [Nat.add_assoc, Nat.add_comm 1 i]
  · rw [windowShift_getElem_last, h.next_eq (by omega)]

theorem fusedUpTo_succ (h : Words8) (b : Block) {n : Nat} (hn : n < 64) :
    fusedUpTo h b (n + 1) = fusedRound (fusedUpTo h b n) ⟨n, hn⟩ := dif_pos hn

/-- After `n` rounds the fused design holds the window of the schedule and the registers of `Rounds`. -/
theorem fusedUpTo_simulates (h : Words8) (b : Block) {n : Nat} (hn : n ≤ 64) :
    WindowHolds b n (fusedUpTo h b n).window ∧ (fusedUpTo h b n).regs = roundsUpTo h (expand b) n := by
  induction n with
  | zero => exact ⟨windowHolds_zero b, rfl⟩
  | succ k ih =>
    obtain ⟨hwindow, hregs⟩ := ih (by omega)
    have hword : (fusedUpTo h b k).window[0] = (expand b)[k] := hwindow 0 (by omega) hn
    rw [fusedUpTo_succ h b hn, roundsUpTo_succ _ _ hn, ← hregs, ← hword]
    exact ⟨hwindow.shift, rfl⟩

/-- Settles O37: after 64 rounds the registers are those of `Rounds`, and both designs add them to `H`. -/
theorem fusedEngineEqualsCompress : Obligations.FusedEngineEqualsCompress := fun h b =>
  have ⟨_, hregs⟩ := fusedUpTo_simulates h b (Nat.le_refl 64)
  congrArg (feedForward h) hregs

end Sys2Proof.Machine
end

section
/-! PROOFS. The constants (20 R63; 43 R150). -/

namespace Sys2Proof.Machine

/-- Trial division up to the square root. -/
theorem prime_iff_no_small_divisor {p k : Nat} (hp : p < k * k) :
    Nat.Prime p ↔ 2 ≤ p ∧ ∀ m < k, 2 ≤ m → m * m ≤ p → ¬ m ∣ p := by
  rw [Nat.prime_def_le_sqrt]
  refine and_congr_right fun _ => ⟨fun h m _ h2 hm => h m h2 (Nat.le_sqrt.2 hm), fun h m h2 hm => ?_⟩
  have hsq : m * m ≤ p := Nat.le_sqrt.1 hm
  exact h m (Nat.mul_self_lt_mul_self_iff.1 (Nat.lt_of_le_of_lt hsq hp)) h2 hsq

/-- The numbers to 311 lie below `18 * 18`, so a divisor below 18 shows those that are not prime. -/
theorem primesTo311_eq_filter : primesTo311 = (List.range 312).filter (fun p => decide (Nat.Prime p)) := by
  have htrial : ∀ p ∈ List.range 312, decide (Nat.Prime p) =
      decide (2 ≤ p ∧ ∀ m < (18 : Nat), 2 ≤ m → m * m ≤ p → ¬ m ∣ p) := fun p hp =>
    decide_eq_decide.2 (prime_iff_no_small_divisor (k := 18) (Nat.lt_trans (List.mem_range.1 hp) (by decide)))
  rw [List.filter_congr htrial]
  decide +kernel

/-- The integer part of the cube root of a prime to 311 is at most 6. -/
theorem readK_cube_root : ∀ t : Index, ∃ c < 7,
    (c * 2 ^ 32 + (readK t).toNat) ^ 3 ≤ primesTo311[t]! * 2 ^ 96 ∧
    primesTo311[t]! * 2 ^ 96 < (c * 2 ^ 32 + (readK t).toNat + 1) ^ 3 := by
  decide +kernel

/-- The integer part of the square root of a prime to 19 is at most 4. -/
theorem initialHash_square_root : ∀ j : Fin 8, ∃ c < 5,
    (c * 2 ^ 32 + (initialHash[j] : Word).toNat) ^ 2 ≤ primesTo311[j]! * 2 ^ 64 ∧
    primesTo311[j]! * 2 ^ 64 < (c * 2 ^ 32 + (initialHash[j] : Word).toNat + 1) ^ 2 := by
  decide +kernel

/-- Settles O15: the integer part of each root is small, so it is found among the candidates. -/
theorem constantsAreRootsOfPrimes : Obligations.ConstantsAreRootsOfPrimes :=
  ⟨primesTo311_eq_filter, rfl, fun t => (readK_cube_root t).imp fun _ => And.right,
    fun j => (initialHash_square_root j).imp fun _ => And.right⟩

end Sys2Proof.Machine
end

section
/-! PROOFS. Decoding and encoding (30 R90 to R102): every word of both formats, and the numbering of the table. -/

namespace Sys2Proof.Machine

/-! ## Sequencer words -/

/-- A sequencer word is its phase code above its index (30 R90). -/
theorem seqWord_seqPhase_seqIndex (w : BitVec 9) : seqWord (seqPhase w) (seqIndex w) = w := by
  have hindex : BitVec.ofNat 6 (seqIndex w).val = w.extractLsb' 0 6 :=
    (BitVec.ofNat_toNat 6 _).trans (BitVec.setWidth_eq _)
  rw [seqWord, hindex, seqPhase, BitVec.extractLsb'_append_extractLsb'_eq_extractLsb' (by decide)]
  exact BitVec.extractLsb'_eq_self

/-- Of the eight phase codes, `110` and `111` alone name no phase (30 R94, R99). -/
theorem phaseCode_cases (c : BitVec 3) : (∃ p : Phase, p.code = c) ∨ c = 0b110#3 ∨ c = 0b111#3 := by
  have hcodes : c = 0b000#3 ∨ c = 0b001#3 ∨ c = 0b010#3 ∨ c = 0b011#3 ∨ c = 0b100#3 ∨ c = 0b101#3 ∨
      c = 0b110#3 ∨ c = 0b111#3 := by
    revert c; decide
  rcases hcodes with rfl | rfl | rfl | rfl | rfl | rfl | h | h
  · exact .inl ⟨.idle, rfl⟩
  · exact .inl ⟨.load, rfl⟩
  · exact .inl ⟨.expand, rfl⟩
  · exact .inl ⟨.winit, rfl⟩
  · exact .inl ⟨.round, rfl⟩
  · exact .inl ⟨.feed, rfl⟩
  · exact .inr (.inl h)
  · exact .inr (.inr h)

@[simp] theorem Phase.ofCode_code (p : Phase) : Phase.ofCode p.code = some p := by
  cases p <;> rfl

theorem Phase.code_eq_zero_iff (p : Phase) : p.code = 0b000#3 ↔ p = .idle := by
  cases p <;> decide

/-- The codes of 30 R99 (b) are those of no phase. -/
theorem Phase.code_ne_unassigned (p : Phase) : ¬ (p.code = 0b110#3 ∨ p.code = 0b111#3) := by
  cases p <;> decide

@[simp] theorem seqPhase_word (q : Seq) : seqPhase q.word = q.phase.code := seqPhase_seqWord _ _

@[simp] theorem seqIndex_word (q : Seq) : seqIndex q.word = q.t := seqIndex_seqWord _ _

/-- A word of nine bits is one the sequencer can hold, or its phase does not exist. -/
theorem seqWord_cases (w : BitVec 9) : (∃ q : Seq, q.word = w) ∨ seqPhase w = 0b110#3 ∨ seqPhase w = 0b111#3 :=
  (phaseCode_cases (seqPhase w)).imp_left fun ⟨p, hp⟩ =>
    ⟨⟨p, seqIndex w⟩, (congrArg (seqWord · (seqIndex w)) hp).trans (seqWord_seqPhase_seqIndex w)⟩

theorem decode_idle {q : Seq} (h : q.phase = .idle) : decode (.seq q.word) = .error .idlePhase := by
  simp [decode, decodeSeq, h, Phase.code]

/-- Every other phase selects its micro-operation, whose own word this is. -/
theorem decode_microOperation {q : Seq} (h : q.phase ≠ .idle) :
    ∃ i, decode (.seq q.word) = .ok i ∧ encode i = .seq q.word := by
  obtain ⟨p, t⟩ := q
  cases p with
  | idle => exact absurd rfl h
  | load => exact ⟨_, decode_load t, rfl⟩
  | expand => exact ⟨_, decode_expand t, rfl⟩
  | winit => exact ⟨_, decode_winit t, rfl⟩
  | round => exact ⟨_, decode_round t, rfl⟩
  | feed => exact ⟨_, decode_feed t, rfl⟩

theorem decode_noSuchPhase {w : BitVec 9} (h : seqPhase w = 0b110#3 ∨ seqPhase w = 0b111#3) :
    decode (.seq w) = .error .noSuchPhase := by
  rcases h with h | h <;> simp [decode, decodeSeq, h]

/-- What a sequencer word can be (30 R94, R99): one of `IDLE`, one of a micro-operation, or one whose phase does not
exist. -/
inductive SeqWordCase (w : BitVec 9) : Prop where
  | idle (hd : decode (.seq w) = .error .idlePhase) (hp : seqPhase w = 0b000#3)
  | microOperation (q : Seq) (hq : q.phase ≠ .idle) (hw : q.word = w) (i : Instr) (hd : decode (.seq w) = .ok i)
      (he : encode i = .seq w)
  | noSuchPhase (hd : decode (.seq w) = .error .noSuchPhase) (hp : seqPhase w = 0b110#3 ∨ seqPhase w = 0b111#3)

theorem seqWordCase (w : BitVec 9) : SeqWordCase w := by
  rcases seqWord_cases w with ⟨q, rfl⟩ | h
  · by_cases hq : q.phase = .idle
    · exact .idle (decode_idle hq) (by simpa using q.phase.code_eq_zero_iff.2 hq)
    · obtain ⟨i, hd, he⟩ := decode_microOperation hq
      exact .microOperation q hq rfl i hd he
  · exact .noSuchPhase (decode_noSuchPhase h) h

/-- A sequencer word that decodes is one the sequencer can hold, outside `IDLE`. -/
theorem decode_seq_ok {w : BitVec 9} {i : Instr} (h : decode (.seq w) = .ok i) :
    encode i = .seq w ∧ ∃ q : Seq, q.phase ≠ .idle ∧ q.word = w := by
  cases seqWordCase w with
  | idle hd => simp [hd] at h
  | microOperation q hq hw j hd he =>
    rw [hd] at h
    exact Except.ok.inj h ▸ ⟨he, q, hq, hw⟩
  | noSuchPhase hd => simp [hd] at h

theorem decode_seq_idlePhase_iff (w : BitVec 9) :
    decode (.seq w) = .error .idlePhase ↔ seqPhase w = 0b000#3 := by
  cases seqWordCase w with
  | idle hd hp => simp [hd, hp]
  | microOperation q hq hw i hd =>
    subst hw
    simp [hd, Phase.code_eq_zero_iff, hq]
  | noSuchPhase hd hp => rcases hp with hp | hp <;> simp [hd, hp]

theorem decode_seq_noSuchPhase_iff (w : BitVec 9) :
    decode (.seq w) = .error .noSuchPhase ↔ seqPhase w = 0b110#3 ∨ seqPhase w = 0b111#3 := by
  cases seqWordCase w with
  | idle hd hp => simp [hd, hp]
  | microOperation q _ hw i hd =>
    subst hw
    simpa [hd] using q.phase.code_ne_unassigned
  | noSuchPhase hd hp => simp [hd, hp]

/-! ## Command words -/

/-- Each command's word carries the block port where the command reads it (30 R92, R102). -/
theorem encode_decodeCmd (code : BitVec 2) (b : BitVec 512) :
    encode (decodeCmd code b) = .cmd code (if code.getLsbD 1 then b else 0) := by
  rcases cmd_cases code with rfl | rfl | rfl | rfl <;> rfl

/-- Settles O3: the four command codes, and the three kinds of sequencer word. -/
theorem everyWordIsAnInstructionOrSelectsNone : Obligations.EveryWordIsAnInstructionOrSelectsNone :=
  ⟨fun code b => ⟨decodeCmd code b, rfl, encode_decodeCmd code b⟩,
    fun _ _ h => (decode_seq_ok h).left, decode_seq_idlePhase_iff, decode_seq_noSuchPhase_iff⟩

/-! ## The round trip -/

theorem decode_encode (i : Instr) : decode (encode i) = .ok i := by
  cases i with
  | nop => rfl
  | init => rfl
  | block b => rfl
  | blockLast b => rfl
  | uWload t => exact decode_load t
  | uWexp t => exact decode_expand t
  | uWinit t => exact decode_winit t
  | uRound t => exact decode_round t
  | uFeed t => exact decode_feed t

/-- The numbering of the table loses no bit of a command word: the two bits of the code lie below the block. -/
theorem tableWord_cmd (code : BitVec 2) (b : BitVec 512) :
    tableWord (CodeWord.cmd code b).tableBits (CodeWord.cmd code b).tableNat = some (.cmd code b) := by
  have hcode : code.toNat < 4 := code.isLt
  have hfit : (code.toNat + b.toNat * 4) >>> 512 < 4 := by
    rw [Nat.shiftRight_eq_div_pow, Nat.div_lt_iff_lt_mul (Nat.two_pow_pos 512)]
    have := b.isLt
    omega
  have hlow : BitVec.ofNat 2 (code.toNat + b.toNat * 4) = code := by
    refine BitVec.eq_of_toNat_eq ?_
    rw [BitVec.toNat_ofNat]
    omega
  have hblock : (code.toNat + b.toNat * 4) >>> 2 = b.toNat := by
    rw [Nat.shiftRight_eq_div_pow]
    omega
  simp [tableWord, CodeWord.tableBits, CodeWord.tableNat, hfit, hlow, hblock]

theorem tableWord_seq (w : BitVec 9) :
    tableWord (CodeWord.seq w).tableBits (CodeWord.seq w).tableNat = some (.seq w) := by
  have hfit : w.toNat < 512 := w.isLt
  simp [tableWord, CodeWord.tableBits, CodeWord.tableNat, hfit]

theorem tableWord_tableNat (c : CodeWord) : tableWord c.tableBits c.tableNat = some c := by
  cases c with
  | cmd code b => exact tableWord_cmd code b
  | seq w => exact tableWord_seq w

/-- A row's word gives an instruction exactly when it is a word of a format and this decodes. -/
theorem decodeTableWord_eq_some {nbits w : Nat} {i : Instr} :
    decodeTableWord nbits w = some i ↔ ∃ c, tableWord nbits w = some c ∧ decode c = .ok i := by
  unfold decodeTableWord
  cases tableWord nbits w with
  | none => simp
  | some c => cases hd : decode c <;> simp [hd]

/-- Settles O2: the numbering gives the word back, and decoding gives back the instruction that was encoded. -/
theorem decodeEncodeRoundTrip : Obligations.DecodeEncodeRoundTrip := fun i =>
  decodeTableWord_eq_some.2 ⟨encode i, tableWord_tableNat _, decode_encode i⟩

/-- Settles O1: the words written out, evaluated. -/
theorem writtenOutWordsDecode : Obligations.WrittenOutWordsDecode := by
  unfold Obligations.WrittenOutWordsDecode
  decide +kernel

end Sys2Proof.Machine
end

section
/-! PROOFS. Which instruction a step runs, and which instructions complete (30 R91, R94, R99; 44 R160, R169). -/

namespace Sys2Proof.Machine

variable {s : State}

/-! ## A step runs the word selected -/

/-- Settles O4: the branch of `step` that the three hypotheses choose. -/
theorem stepRunsTheSelectedInstruction : Obligations.StepRunsTheSelectedInstruction := by
  intro s c i hr hs hd
  simp [step, hr, hs, hd]

/-- Settles O5: the step of each phase, and of a transfer the step with the code put in. -/
theorem phaseSelectsTheInstruction : Obligations.PhaseSelectsTheInstruction := fun s hr =>
  have htransfer (hp : s.seq.phase = .idle) (hv : s.portsNow.cmdValid = true) {code : BitVec 2}
      (hc : s.portsNow.cmd = code) : step s = exec (decodeCmd code s.portsNow.block) s.afterPorts :=
    hc ▸ step_transfer hr hp hv
  ⟨fun hp hv => ⟨htransfer hp hv, htransfer hp hv, htransfer hp hv, htransfer hp hv⟩,
    step_load hr, step_expand hr, step_winit hr, step_round hr, step_feed hr⟩

/-- 44 R160: outside `IDLE` the sequencer's own word is selected, whatever the ports show. -/
theorem State.select_busy (hp : s.seq.phase ≠ .idle) (p : PortIn) : s.select p = some (.seq s.seq.word) :=
  if_neg fun hready => hp (s.cmdReady_iff.1 hready)

/-! ## A word placed for the next step (log 3, log 10) -/

theorem State.withCodeWord_word (s : State) (q : Seq) :
    s.withCodeWord (.seq q.word) = { s with seq := q, inputs := PortIn.quiet :: s.inputs } := by
  simp [State.withCodeWord]

/-- A word that decodes is the one selected once it is placed, and its port sample is the only other change. -/
theorem step_withCodeWord {c : CodeWord} {i : Instr} (hd : decode c = .ok i) :
    ∃ q : Seq, step (s.withCodeWord c) = exec i { s with seq := q } := by
  cases c with
  | cmd code b =>
    exact ⟨⟨.idle, 0⟩, stepRunsTheSelectedInstruction (s.withCodeWord (.cmd code b)) _ i rfl rfl hd⟩
  | seq w =>
    obtain ⟨-, q, hq, rfl⟩ := decode_seq_ok hd
    rw [State.withCodeWord_word]
    exact ⟨q, stepRunsTheSelectedInstruction _ _ i rfl (State.select_busy hq _) hd⟩

/-- Settles O6: the row's word is placed as a word of its format. -/
theorem placedWordIsRunNext : Obligations.PlacedWordIsRunNext := by
  intro s nbits w i h
  obtain ⟨c, hw, hd⟩ := decodeTableWord_eq_some.1 h
  rw [State.withFetchWord, hw]
  exact step_withCodeWord hd

/-! ## Which instructions complete -/

theorem exec_next_of_wf {i : Instr} (h : i.wf = true) (s : State) : ∃ s', exec i s = .next s' := by
  cases i with
  | nop => exact ⟨_, exec_nop s⟩
  | init => exact ⟨_, exec_init s⟩
  | block b => exact ⟨_, exec_block b s⟩
  | blockLast b => exact ⟨_, exec_blockLast b s⟩
  | uWload t => exact ⟨_, exec_uWload (of_decide_eq_true h) s⟩
  | uWexp t => exact ⟨_, exec_uWexp (of_decide_eq_true h) s⟩
  | uWinit t =>
    obtain rfl : t = 0 := Fin.ext (of_decide_eq_true h)
    exact ⟨_, exec_uWinit s⟩
  | uRound t => exact ⟨_, exec_uRound t s⟩
  | uFeed t =>
    obtain rfl : t = 0 := Fin.ext (of_decide_eq_true h)
    exact ⟨_, exec_uFeed s⟩

/-- 30 R99 (b): a micro-operation with an index outside the range of its phase. -/
theorem exec_fault_of_not_wf {i : Instr} (h : i.wf = false) (s : State) :
    exec i s = .fault .noMicroOperation := by
  cases i with
  | nop | init | block | blockLast | uRound => cases h
  | uWload | uWexp | uWinit | uFeed => exact if_neg (Bool.eq_false_iff.1 h)

/-- Settles O7, in every state. -/
theorem completesExactlyWhenWellFormed : Obligations.CompletesExactlyWhenWellFormed := fun _ s =>
  ⟨fun h => exec_next_of_wf h s, fun h => exec_fault_of_not_wf h s⟩

/-- Every command is well-formed (30 R95), so its transfer completes. -/
theorem exec_decodeCmd_next (code : BitVec 2) (b : BitVec 512) (s : State) :
    ∃ s', exec (decodeCmd code b) s = .next s' := by
  refine exec_next_of_wf ?_ s
  rcases cmd_cases code with rfl | rfl | rfl | rfl <;> rfl

/-- Settles O21: the transfer of `NOP` is the step of `exec_nop`. -/
theorem nopChangesNothing : Obligations.NopChangesNothing :=
  ⟨exec_nop, fun _ h => h.step_eq⟩

end Sys2Proof.Machine
end

section
/-! PROOFS. The ports outside a transfer, and a host that waits (30 R91, R103; 44 R160; 70 R237). -/

namespace Sys2Proof.Machine

/-- Settles O27: a step that is no transfer is the wait or the micro-operation of the state, for every sample. -/
theorem portsHaveNoEffectOutsideATransfer : Obligations.PortsHaveNoEffectOutsideATransfer := by
  intro s p p' later hr hr' h
  by_cases hp : s.seq.phase = .idle
  · obtain ⟨hv, hv'⟩ := h.resolve_left fun hbusy => hbusy hp
    have hwait {p : PortIn} (hr : p.rst = false) (hv : p.cmdValid = false) :
        step { s with inputs := p :: later } = .next { s with inputs := later } :=
      step_wait (s := { s with inputs := p :: later }) hr hp hv
    rw [hwait hr hv, hwait hr' hv']
  · rw [step_busy (s := { s with inputs := p :: later }) hr hp,
      step_busy (s := { s with inputs := p' :: later }) hr' hp]
    rfl

/-- The host goes on exactly when its core makes the step. -/
theorem HostRun.coreStep_next_iff {h h' : HostRun} {p : PortIn} {todo : List HostAction} :
    h.coreStep p todo = .next h' ↔
      step (h.core.present p) = .next h'.core ∧ h'.todo = todo ∧ h'.reads = h.reads := by
  obtain ⟨core, todo', reads⟩ := h'
  unfold HostRun.coreStep
  cases step (h.core.present p) with
  | next t => simp [eq_comm]
  | fault f => simp
  | refused r => simp

theorem HostRun.hostStep_command {h : HostRun} {code : BitVec 2} {b : BitVec 512} {rest : List HostAction}
    (ht : h.todo = .command code b :: rest) : h.hostStep =
      h.coreStep ⟨false, true, code, b⟩ (if h.core.cmdReady then rest else h.todo) := by
  simp [HostRun.hostStep, ht]

/-- A command offered while the core is busy changes nothing of its step. -/
theorem HostRun.hostStep_command_busy {h h' : HostRun} {code : BitVec 2} {b : BitVec 512}
    {rest : List HostAction} (ht : h.todo = .command code b :: rest) (hb : h.core.cmdReady = false) :
    h.hostStep = .next h' ↔
      step (h.core.present PortIn.quiet) = .next h'.core ∧ h'.todo = h.todo ∧ h'.reads = h.reads := by
  have hp : h.core.seq.phase ≠ .idle := of_decide_eq_false hb
  have hports : step (h.core.present ⟨false, true, code, b⟩) = step (h.core.present PortIn.quiet) :=
    portsHaveNoEffectOutsideATransfer h.core _ _ [] rfl rfl (.inl hp)
  rw [HostRun.hostStep_command ht, HostRun.coreStep_next_iff, hports, hb]
  rfl

/-- In `IDLE` outside `DONE` there is no digest to sample, and the core waits (30 R103). -/
theorem HostRun.hostStep_rdDigest_waits {s : State} (hp : s.seq.phase = .idle) (hd : s.hs ≠ .done)
    (hi : s.inputs = []) (rest : List HostAction) (reads : List HostRead) :
    HostRun.hostStep ⟨s, .rdDigest :: rest, reads⟩ = .next ⟨s, .rdDigest :: rest, reads⟩ := by
  have hs : step (s.present PortIn.quiet) = .next s := by
    rw [step_wait (s := s.present PortIn.quiet) rfl hp rfl, State.present_afterPorts, ← hi]
  have hready : s.cmdReady = true := s.cmdReady_iff.2 hp
  have hnone : s.digest = none := State.digest_of_not_done hd
  simp only [HostRun.hostStep, hready, hnone]
  exact HostRun.coreStep_next (h := ⟨s, .rdDigest :: rest, reads⟩) _ hs

theorem HostRun.hostSteps_of_fixed {h : HostRun} (hs : h.hostStep = .next h) (n : Nat) :
    HostRun.hostSteps n h = .next h := by
  induction n with
  | zero => rfl
  | succ n ih => rw [HostRun.hostSteps_succ hs, ih]

/-- Settles O57: the transfer, the busy core, and a wait that changes nothing and so can be repeated. -/
theorem hostWaitsForTheCore : Obligations.HostWaitsForTheCore := by
  refine ⟨fun h code b rest ht hready => ?_, fun _ _ _ _ _ ht hb => HostRun.hostStep_command_busy ht hb,
    fun n s rest reads hp hd hi => ?_⟩
  · obtain ⟨t, he⟩ := exec_decodeCmd_next code b { h.core with inputs := [] }
    obtain ⟨s, todo, reads⟩ := h
    subst ht
    exact ⟨t, he, HostRun.hostStep_transfer (s.cmdReady_iff.1 hready) he rest reads⟩
  · exact HostRun.hostSteps_of_fixed (HostRun.hostStep_rdDigest_waits hp hd hi rest reads) n

end Sys2Proof.Machine
end

section
/-! PROOFS. Bits of the function units (40 R111 to R119). -/

namespace Sys2Proof.Machine

/-- 40 R111: bit `i` of the rotation is bit `(i + n) mod 32`. -/
theorem getLsbD_rotr (x : Word) {n i : Nat} (hn : n < 32) (hi : i < 32) :
    (rotr x n).getLsbD i = x.getLsbD ((i + n) % 32) := by
  rw [rotr, BitVec.getLsbD_rotateRight_of_lt hn]
  by_cases h : i < 32 - n
  · have hmod : (i + n) % 32 = n + i := by omega
    simp [h, hmod]
  · have hmod : (i + n) % 32 = i - (32 - n) := by omega
    simp [h, hi, hmod]

/-- 40 R112: above the Word there are zeros. -/
theorem getLsbD_shr (x : Word) (n i : Nat) :
    (shr x n).getLsbD i = (decide (i + n < 32) && x.getLsbD (i + n)) := by
  rw [shr, BitVec.getLsbD_ushiftRight, Nat.add_comm n i]
  by_cases h : i + n < 32
  · simp [h]
  · simp [h, BitVec.getLsbD_of_ge x (i + n) (Nat.le_of_not_lt h)]

theorem getLsbD_xor32 (x y : Word) (i : Nat) : (xor32 x y).getLsbD i = (x.getLsbD i ^^ y.getLsbD i) :=
  BitVec.getLsbD_xor

/-- Settles O12: each sigma function is two exclusive ors of rotations and shifts, whose bits are known. -/
theorem sigmaFunctionsBitByBit : Obligations.SigmaFunctionsBitByBit := by
  intro x i hi
  refine ⟨?_, ?_, ?_, ?_⟩
  · simp only [sig0, getLsbD_xor32, getLsbD_rotr, hi, getLsbD_shr, Nat.reduceLT]
  · simp only [sig1, getLsbD_xor32, getLsbD_rotr, hi, getLsbD_shr, Nat.reduceLT]
  · simp only [bsig0, getLsbD_xor32, getLsbD_rotr, hi, Nat.reduceLT]
  · simp only [bsig1, getLsbD_xor32, getLsbD_rotr, hi, Nat.reduceLT]

end Sys2Proof.Machine
end

section
/-! PROOFS. The function units as arithmetic and bit by bit (40 R110 to R115, R120, R121). -/

namespace Sys2Proof.Machine

variable (x y z : Word)

/-! ## Addition, rotation and shift -/

/-- Settles O8: the laws are those of addition on 32 bits, the fixed words are evaluated. -/
theorem addWrapsModulo : Obligations.AddWrapsModulo :=
  ⟨add32_toNat, BitVec.add_comm, BitVec.add_assoc, fun x => BitVec.add_zero x,
    by decide, by decide, by decide, by decide⟩

theorem rotr_eq_shifts {n : Nat} (hn : n < 32) : rotr x n = (x >>> n) ||| (x <<< (32 - n)) :=
  BitVec.rotateRight_eq_rotateRightAux_of_lt hn

/-- A rotation by the rest of the Word's length undoes a rotation. -/
theorem rotr_rotr_sub {n : Nat} (h1 : 1 ≤ n) (h31 : n ≤ 31) : rotr (rotr x n) (32 - n) = x := by
  refine BitVec.eq_of_getLsbD_eq fun i hi => ?_
  have hback : ((i + (32 - n)) % 32 + n) % 32 = i := by omega
  rw [getLsbD_rotr _ (by omega) hi, getLsbD_rotr _ (by omega) (Nat.mod_lt _ (by decide)), hback]

/-- Settles O9: the two shifts, the bit that moves to each place, and the rotation that undoes this one. -/
theorem rotrIsACircularRotation : Obligations.RotrIsACircularRotation := by
  intro x n h1 h31
  have hn : n < 32 := by omega
  refine ⟨rotr_eq_shifts x hn, fun i hi => getLsbD_rotr x hn hi, fun y h => ?_⟩
  rw [← rotr_rotr_sub x h1 h31, h, rotr_rotr_sub y h1 h31]

theorem shr_toNat (n : Nat) : (shr x n).toNat = x.toNat / 2 ^ n := by
  rw [shr, BitVec.toNat_ushiftRight, Nat.shiftRight_eq_div_pow]

/-- Settles O10, as a number and bit by bit. -/
theorem shrIsTheQuotient : Obligations.ShrIsTheQuotient := fun x n _ =>
  ⟨shr_toNat x n, fun i _ => getLsbD_shr x n i⟩

/-! ## The bitwise units -/

theorem getLsbD_and32 (i : Nat) : (and32 x y).getLsbD i = (x.getLsbD i && y.getLsbD i) :=
  BitVec.getLsbD_and

theorem getLsbD_not32 {i : Nat} (hi : i < 32) : (not32 x).getLsbD i = !x.getLsbD i := by
  simp [not32, hi]

/-- Settles O11: the bits, and the complement as what a Word lacks to all ones. -/
theorem bitwiseUnitsBitByBit : Obligations.BitwiseUnitsBitByBit := fun x y =>
  ⟨fun i _ => getLsbD_xor32 x y i, fun i _ => getLsbD_and32 x y i, fun _ => getLsbD_not32 x,
    (BitVec.allOnes_sub_eq_not x).symm, BitVec.xor_allOnes⟩

theorem getLsbD_ones {i : Nat} (hi : i < 32) : (0xffffffff#32).getLsbD i = true :=
  (BitVec.getLsbD_allOnes (v := 32)).trans (decide_eq_true hi)

/-! ## `CH` (40 R120) -/

/-- Of the two terms the bit of `x` leaves one. -/
theorem getLsbD_ch {i : Nat} (hi : i < 32) :
    (ch x y z).getLsbD i = if x.getLsbD i then y.getLsbD i else z.getLsbD i := by
  rw [ch, getLsbD_xor32, getLsbD_and32, getLsbD_and32, getLsbD_not32 x hi]
  cases x.getLsbD i <;> simp

/-- `CH` is the Word that has the chosen bit at every place. -/
theorem ch_eq_of_bits {w : Word}
    (h : ∀ i, i < 32 → w.getLsbD i = if x.getLsbD i then y.getLsbD i else z.getLsbD i) : ch x y z = w :=
  BitVec.eq_of_getLsbD_eq fun i hi => (getLsbD_ch x y z hi).trans (h i hi).symm

theorem ch_eq_xor_form : ch x y z = z ^^^ (x &&& (y ^^^ z)) :=
  ch_eq_of_bits x y z fun i _ => by
    rw [BitVec.getLsbD_xor, BitVec.getLsbD_and, BitVec.getLsbD_xor]
    cases x.getLsbD i <;> simp [Bool.xor_left_comm]

theorem ch_eq_or_form : ch x y z = (x &&& y) ||| (~~~x &&& z) :=
  ch_eq_of_bits x y z fun i hi => by
    rw [BitVec.getLsbD_or, BitVec.getLsbD_and, BitVec.getLsbD_and, BitVec.getLsbD_not]
    cases x.getLsbD i <;> simp [hi]

theorem ch_ones : ch 0xffffffff#32 y z = y :=
  ch_eq_of_bits _ y z fun i hi => by rw [getLsbD_ones hi, if_pos rfl]

theorem ch_zero : ch 0#32 y z = z :=
  ch_eq_of_bits _ y z fun i _ => by rw [BitVec.getLsbD_zero, if_neg Bool.false_ne_true]

theorem ch_same : ch x y y = y :=
  ch_eq_of_bits x y y fun _ _ => (ite_self _).symm

/-- Settles O13: the chosen bit, the equivalent forms and the corner cases. -/
theorem chooseTakesTheChosenBit : Obligations.ChooseTakesTheChosenBit := fun x y z =>
  ⟨fun _ => getLsbD_ch x y z, ch_eq_xor_form x y z, ch_eq_or_form x y z, ch_ones y z, ch_zero y z, ch_same x y⟩

/-! ## `MAJ` (40 R121) -/

/-- Where `x` has a 1 one more of the two others is enough, elsewhere both are needed. -/
theorem getLsbD_maj (i : Nat) : (maj x y z).getLsbD i =
    if x.getLsbD i then y.getLsbD i || z.getLsbD i else y.getLsbD i && z.getLsbD i := by
  rw [maj, getLsbD_xor32, getLsbD_xor32, getLsbD_and32, getLsbD_and32, getLsbD_and32]
  cases x.getLsbD i with
  | false => simp
  | true => cases y.getLsbD i <;> simp

theorem two_le_count_iff (a b c : Bool) :
    decide (2 ≤ a.toNat + b.toNat + c.toNat) = if a then b || c else b && c := by
  revert a b c; decide

theorem getLsbD_maj_eq_count (i : Nat) : (maj x y z).getLsbD i =
    decide (2 ≤ (x.getLsbD i).toNat + (y.getLsbD i).toNat + (z.getLsbD i).toNat) :=
  (getLsbD_maj x y z i).trans (two_le_count_iff _ _ _).symm

/-- The count does not change when two of the Words change places. -/
theorem maj_swap_left : maj x y z = maj y x z :=
  BitVec.eq_of_getLsbD_eq fun i _ => by
    rw [getLsbD_maj_eq_count, getLsbD_maj_eq_count, Nat.add_comm (x.getLsbD i).toNat]

theorem maj_swap_right : maj x y z = maj x z y :=
  BitVec.eq_of_getLsbD_eq fun i _ => by rw [getLsbD_maj_eq_count, getLsbD_maj_eq_count, Nat.add_right_comm]

/-- `MAJ` is the Word that has the bit of `getLsbD_maj` at every place. -/
theorem maj_eq_of_bits {w : Word} (h : ∀ i, i < 32 → w.getLsbD i =
      if x.getLsbD i then y.getLsbD i || z.getLsbD i else y.getLsbD i && z.getLsbD i) : maj x y z = w :=
  BitVec.eq_of_getLsbD_eq fun i hi => (getLsbD_maj x y z i).trans (h i hi).symm

theorem maj_eq_or_form : maj x y z = (x &&& y) ||| (z &&& (x ||| y)) :=
  maj_eq_of_bits x y z fun i _ => by
    rw [BitVec.getLsbD_or, BitVec.getLsbD_and, BitVec.getLsbD_and, BitVec.getLsbD_or]
    cases x.getLsbD i <;> simp [Bool.and_comm]

theorem maj_eq_xor_form : maj x y z = (x &&& y) ^^^ (z &&& (x ^^^ y)) :=
  maj_eq_of_bits x y z fun i _ => by
    rw [BitVec.getLsbD_xor, BitVec.getLsbD_and, BitVec.getLsbD_and, BitVec.getLsbD_xor]
    cases x.getLsbD i with
    | false => simp [Bool.and_comm]
    | true => cases y.getLsbD i <;> simp

theorem maj_same : maj x x z = x :=
  maj_eq_of_bits x x z fun i _ => by cases x.getLsbD i <;> simp

theorem maj_zero : maj 0#32 y z = y &&& z :=
  maj_eq_of_bits _ y z fun i _ => by rw [BitVec.getLsbD_zero, if_neg Bool.false_ne_true, BitVec.getLsbD_and]

theorem maj_ones : maj 0xffffffff#32 y z = y ||| z :=
  maj_eq_of_bits _ y z fun i hi => by rw [getLsbD_ones hi, if_pos rfl, BitVec.getLsbD_or]

/-- Settles O14: the count of the bits, the symmetry it has, the equivalent forms and the corner cases. -/
theorem majorityOfThreeBits : Obligations.MajorityOfThreeBits := fun x y z =>
  ⟨fun i _ => getLsbD_maj_eq_count x y z i, maj_swap_left x y z, maj_swap_right x y z, maj_eq_or_form x y z,
    maj_eq_xor_form x y z, maj_same x z, maj_zero y z, maj_ones y z⟩

end Sys2Proof.Machine
end

section
/-! PROOFS. The control does not depend on the data (40 R122 (e), 41 R134 (c), 42 R144 (c)): every operation takes
two states with the same control to two such states, whatever data it writes into each. -/

namespace Sys2Proof.Machine

namespace SameControl

variable {s s' : State} (a : SameControl s s')
include a

/-! ## The operations on the state -/

theorem afterPorts : SameControl s.afterPorts s'.afterPorts where
  __ := a
  inputs := by simpa only [State.afterPorts_inputs, List.map_tail] using congrArg List.tail a.inputs

theorem resetEdge : SameControl s.resetEdge s'.resetEdge := ⟨rfl, rfl, rfl, rfl, rfl, a.inputs⟩

theorem writeW (t : Index) (v v' : Word) : SameControl (s.writeW t v) (s'.writeW t v') := { a with }

theorem writeWork (v v' : Words8) : SameControl (s.writeWork v) (s'.writeWork v') := { a with }

theorem writeHash (v v' : Words8) : SameControl (s.writeHash v) (s'.writeHash v') := { a with }

theorem latchBlock (b b' : BitVec 512) (last : Bool) :
    SameControl (s.latchBlock b last) (s'.latchBlock b' last) := by
  constructor <;> simp [a.hs, a.seq, a.err, a.errCode, a.inputs]

theorem goto (p : Phase) (n : Index) : SameControl (s.goto p n) (s'.goto p n) := { a with seq := rfl }

theorem setSession (v : Session) : SameControl (s.setSession v) (s'.setSession v) := { a with hs := rfl }

theorem clearLast : SameControl s.clearLast s'.clearLast := { a with lastQ := rfl }

theorem clearError : SameControl s.clearError s'.clearError := { a with err := rfl, errCode := rfl }

theorem advance (p : Phase) (t last : Index) (q : Phase) (n : Index) :
    SameControl (s.advance p t last q n) (s'.advance p t last q n) := by
  rw [State.advance_eq, State.advance_eq]
  exact { a with seq := rfl }

theorem raiseSeqError (c : ErrCode) : SameControl (s.raiseSeqError c) (s'.raiseSeqError c) := by
  cases he : s.err with
  | true => rwa [State.raiseSeqError_of_err he, State.raiseSeqError_of_err (a.err ▸ he)]
  | false =>
    rw [State.raiseSeqError_of_not_err he, State.raiseSeqError_of_not_err (a.err ▸ he)]
    exact { a with err := rfl, errCode := rfl }

theorem acceptBlock (last : Bool) (b b' : BitVec 512) :
    SameControl (acceptBlock last b s) (acceptBlock last b' s') := by
  cases hs : s.hs with
  | active =>
    rw [acceptBlock_active hs, acceptBlock_active (a.hs ▸ hs)]
    exact (a.latchBlock b b' last).goto .load 0
  | empty =>
    rw [acceptBlock_empty hs, acceptBlock_empty (a.hs ▸ hs)]
    exact a.raiseSeqError .noInit
  | done =>
    rw [acceptBlock_done hs, acceptBlock_done (a.hs ▸ hs)]
    exact a.raiseSeqError .terminal

theorem sessionAfterFeed_eq : sessionAfterFeed s = sessionAfterFeed s' := by
  rw [sessionAfterFeed, sessionAfterFeed, a.hs, a.lastQ]

/-! ## The ports -/

theorem portsNow : s.portsNow.control = s'.portsNow.control := by
  have hhead := congrArg (fun ps => ps.headD PortIn.quiet.control) a.inputs
  simpa only [State.portsNow, List.headD_eq_head?_getD, List.head?_map, Option.getD_map] using hhead

theorem rst_eq : s.portsNow.rst = s'.portsNow.rst := congrArg Prod.fst a.portsNow

theorem cmdValid_eq : s.portsNow.cmdValid = s'.portsNow.cmdValid := congrArg (·.2.1) a.portsNow

theorem cmd_eq : s.portsNow.cmd = s'.portsNow.cmd := congrArg (·.2.2) a.portsNow

theorem transfer {c : BitVec 2} (h : Transfer s c) : Transfer s' c := by
  have hp : s'.seq.phase = .idle := a.seq ▸ h.idle
  obtain ⟨hr, -, hv, hc⟩ := h
  exact ⟨a.rst_eq ▸ hr, s'.cmdReady_iff.2 hp, a.cmdValid_eq ▸ hv, a.cmd_eq ▸ hc⟩

/-! ## The step -/

/-- Every step of `s` is matched by a step of `s'` of the same kind. -/
theorem stepCase {t : State} (h : StepCase s t) : ∃ t', StepCase s' t' ∧ SameControl t t' := by
  have hrst := a.rst_eq
  have hseq := a.seq
  have m := a.afterPorts
  cases h with
  | reset hr => exact ⟨_, .reset (hrst ▸ hr), m.resetEdge⟩
  | wait hr hp hv => exact ⟨_, .wait (hrst ▸ hr) (hseq ▸ hp) (a.cmdValid_eq ▸ hv), m⟩
  | nop ht => exact ⟨_, .nop (a.transfer ht), m⟩
  | init ht => exact ⟨_, .init (a.transfer ht), ((m.writeHash _ _).setSession .active).clearError⟩
  | block last ht => exact ⟨_, .block last (a.transfer ht), m.acceptBlock last _ _⟩
  | load hr hp ht =>
    exact ⟨_, .load (hrst ▸ hr) (hseq ▸ hp) (hseq ▸ ht), hseq ▸ (m.writeW _ _ _).advance ..⟩
  | expand hr hp ht =>
    exact ⟨_, .expand (hrst ▸ hr) (hseq ▸ hp) (hseq ▸ ht), hseq ▸ (m.writeW _ _ _).advance ..⟩
  | winit hr hp ht =>
    exact ⟨_, .winit (hrst ▸ hr) (hseq ▸ hp) (hseq ▸ ht), (m.writeWork _ _).goto .round 0⟩
  | round hr hp => exact ⟨_, .round (hrst ▸ hr) (hseq ▸ hp), hseq ▸ (m.writeWork _ _).advance ..⟩
  | feed hr hp ht =>
    exact ⟨_, .feed (hrst ▸ hr) (hseq ▸ hp) (hseq ▸ ht),
      a.sessionAfterFeed_eq ▸ (((m.writeHash _ _).setSession (sessionAfterFeed s)).clearLast).goto .idle 0⟩

end SameControl

/-- Settles O50: having the same control is a simulation. -/
theorem controlDoesNotDependOnData : Obligations.ControlDoesNotDependOnData := by
  intro s s' t a hs
  obtain ⟨t', hs', hsame⟩ := a.stepCase (step_cases hs)
  exact ⟨t', hs'.step_eq, hsame⟩

end Sys2Proof.Machine
end

section
/-! PROOFS. The message-schedule expander (41 R130 to R133): its two micro-operations, `Expand(B)` as the one solution
of its recurrence, and its 64 steps. -/

namespace Sys2Proof.Machine

/-! ## The two micro-operations -/

theorem State.readBLK_blockIndex (s : State) {t : Index} (h : t.val < 16) :
    s.readBLK (blockIndex t) = s.BLK[t.val] := by
  simp only [State.readBLK, Fin.getElem_fin, blockIndex_val h]

/-- 41 R131: the four `add32` are one sum modulo 2^32. -/
theorem expandedWord_toNat (w : Schedule) (t : Index) : (expandedWord w t).toNat =
    ((sig1 w[t.val - 2]).toNat + (w[t.val - 7]).toNat + (sig0 w[t.val - 15]).toNat +
      (w[t.val - 16]).toNat) % 2 ^ 32 := by
  simp [expandedWord]

/-- What `U_WLOAD` and `U_WEXP` have in common: one Word of the schedule is written, the sequencer steps inside its
phase, and nothing else changes. -/
theorem exec_writes_one_word {i : Instr} {s : State} {t last n : Index} {v : Word} {p q : Phase}
    (he : exec i s = .next ((s.writeW t v).advance p t last q n)) :
    ∃ s', exec i s = .next s' ∧ s'.readW t = v ∧ (∀ u : Index, u ≠ t → s'.readW u = s.readW u) ∧
      (t.val < last.val → s'.seq.phase = p ∧ s'.seq.t.val = t.val + 1) ∧
      (t.val = last.val → s'.seq = ⟨q, n⟩) ∧
      s' = { s with W := s'.W, seq := s'.seq } := by
  refine ⟨_, he, ?_, fun u hu => ?_, State.advance_seq_of_lt _ _ _ _, State.advance_seq_of_eq _ _ _ _, ?_⟩ <;>
    rw [State.advance_eq]
  · exact s.memRead_writeW_self t v
  · exact s.memRead_writeW_ne v hu
  · rfl

/-- Settles O28: `U_WLOAD` writes one Word, the one of the block at the same index. -/
theorem wloadCopiesABlockWord : Obligations.WloadCopiesABlockWord := by
  intro s t h
  rw [← s.readBLK_blockIndex h]
  exact exec_writes_one_word (exec_uWload (Nat.le_of_lt_succ h) s)

/-- Settles O29: `U_WEXP` writes one Word, the sum of the four earlier ones. -/
theorem wexpComputesAScheduleWord : Obligations.WexpComputesAScheduleWord := by
  intro s t h
  obtain ⟨s', he, hword, hrest⟩ := exec_writes_one_word (exec_uWexp h s)
  exact ⟨s', he, hword ▸ expandedWord_toNat s.W t, hrest⟩

/-! ## `Expand(B)` is the one solution of its recurrence -/

/-- A schedule whose every entry is the one computed from the earlier ones is `Expand(B)`, as far as one looks. -/
theorem eqBelow_expand_of_entries {b : Block} {w : Schedule} (h : ∀ t : Index, w[t] = scheduleEntry b w t)
    {n : Nat} (hn : n ≤ 64) : EqBelow n w (expand b) := by
  induction n with
  | zero => exact .zero _ _
  | succ k ih =>
    have hstep := (ih (Nat.le_of_succ_le hn)).set_scheduleEntry (t := ⟨k, hn⟩)
    rwa [← h ⟨k, hn⟩, Fin.getElem_fin, Vector.set_getElem_self] at hstep

theorem eq_expand_iff {b : Block} {w : Schedule} : w = expand b ↔ ∀ t : Index, w[t] = scheduleEntry b w t :=
  ⟨fun h => h ▸ expand_getElem b, fun h => (eqBelow_expand_of_entries h (Nat.le_refl 64)).eq⟩

theorem scheduleEntry_of_lt (b : Block) (w : Schedule) {i : Nat} (h : i < 16) :
    scheduleEntry b w ⟨i, by omega⟩ = b[i] := by
  rw [scheduleEntry_load _ _ h, Fin.getElem_fin]
  simp only [blockIndex_val (t := ⟨i, by omega⟩) h]

theorem scheduleEntry_of_ge (b : Block) (w : Schedule) {i : Nat} (h : i < 64) (h16 : 16 ≤ i) :
    scheduleEntry b w ⟨i, h⟩ = sig1 w[i - 2] + w[i - 7] + sig0 w[i - 15] + w[i - 16] :=
  scheduleEntry_expand b w (Nat.not_lt.2 h16)

/-- The entries given case by case (41 R133). -/
theorem entries_iff_recurrence {b : Block} {w : Schedule} :
    (∀ t : Index, w[t] = scheduleEntry b w t) ↔
      (∀ (i : Nat) (h : i < 16), w[i] = b[i]) ∧
      (∀ (i : Nat) (h : i < 64), 16 ≤ i → w[i] = sig1 w[i - 2] + w[i - 7] + sig0 w[i - 15] + w[i - 16]) := by
  constructor
  · intro h
    exact ⟨fun i hi => (h ⟨i, by omega⟩).trans (scheduleEntry_of_lt b w hi),
      fun i hi h16 => (h ⟨i, hi⟩).trans (scheduleEntry_of_ge b w hi h16)⟩
  · intro ⟨hcopy, hsum⟩ t
    rcases Nat.lt_or_ge t.val 16 with ht | ht
    · exact (hcopy t.val ht).trans (scheduleEntry_of_lt b w ht).symm
    · exact (hsum t.val t.isLt ht).trans (scheduleEntry_of_ge b w t.isLt ht).symm

/-- Settles O34: the recurrence determines every entry, and what the array held before does not count. -/
theorem expandIsTheRecurrence : Obligations.ExpandIsTheRecurrence := by
  intro b before w
  rw [← entries_iff_recurrence, ← eq_expand_iff, scheduleFrom_eq_expand, and_self]

theorem sig0_zero : sig0 0#32 = 0#32 := by decide

theorem sig1_zero : sig1 0#32 = 0#32 := by decide

theorem expand_zero : expand (Vector.replicate 16 0) = Vector.replicate 64 0 :=
  (eq_expand_iff.2 (entries_iff_recurrence.2
    ⟨fun i hi => by simp, fun i hi h16 => by simp [sig0_zero, sig1_zero]⟩)).symm

/-- Settles O35: the zero schedule obeys the recurrence of the zero block. -/
theorem zeroBlockExpandsToZero : Obligations.ZeroBlockExpandsToZero := by
  intro i
  rw [expand_zero, Fin.getElem_fin, Vector.getElem_replicate]

/-! ## The 64 steps -/

/-- Settles O38: the micro-operations of the expander are a run while no reset comes. -/
theorem expanderStepsComputeExpand : Obligations.ExpanderStepsComputeExpand := fun s h hr =>
  (microSteps_expander h).run_eq (ports := s.inputs) hr

end Sys2Proof.Machine
end

section
/-! PROOFS. The compression round engine (42 R140, R143, R144): `U_WINIT`, the 65 steps of `Rounds(H, W)`, and the round
undone. -/

namespace Sys2Proof.Machine

/-- Settles O30: the state is the one of `exec_uWinit`. -/
theorem winitLoadsTheHash : Obligations.WinitLoadsTheHash := fun s =>
  ⟨_, exec_uWinit s, fun _ => rfl, rfl, rfl⟩

/-! ## A round undone (42 R144 (d)) -/

theorem words8_eta (q : Words8) : #v[q[0], q[1], q[2], q[3], q[4], q[5], q[6], q[7]] = q := by
  ext j hj
  interval_cases j <;> rfl

/-- T1 is the old `h` plus four terms that the new tuple shows, so the old `h` follows by subtraction. -/
theorem roundT1_eq_iff (r : Words8) (k w x : Word) :
    roundT1 r k w = x ↔ r[7] = x - w - k - ch r[4] r[5] r[6] - bsig1 r[4] := by
  simp only [roundT1, add32, eq_sub_iff_add_eq]

/-- T1 is the new `a` less T2, which the new `b, c, d` show. -/
theorem roundRegs_sub_roundT2 (r : Words8) (k w : Word) : (roundRegs r k w)[0] - roundT2 r = roundT1 r k w :=
  add_sub_cancel_right (roundT1 r k w) (roundT2 r)

theorem roundInverse_roundRegs (q : Words8) (k w : Word) : roundInverse (roundRegs q k w) k w = q := by
  have hd : add32 q[3] (roundT1 q k w) - ((roundRegs q k w)[0] - roundT2 q) = q[3] := by
    rw [roundRegs_sub_roundT2, add32, add_sub_cancel_right]
  have hh : (roundRegs q k w)[0] - roundT2 q - w - k - ch q[4] q[5] q[6] - bsig1 q[4] = q[7] := by
    rw [roundRegs_sub_roundT2, ← (roundT1_eq_iff q k w _).1 rfl]
  calc roundInverse (roundRegs q k w) k w
    _ = #v[q[0], q[1], q[2], add32 q[3] (roundT1 q k w) - ((roundRegs q k w)[0] - roundT2 q), q[4], q[5], q[6],
          (roundRegs q k w)[0] - roundT2 q - w - k - ch q[4] q[5] q[6] - bsig1 q[4]] := rfl
    _ = q := by rw [hd, hh, words8_eta]

/-- T1 of the recovered tuple is the T1 that its `h` was recovered from. -/
theorem roundT1_roundInverse (q : Words8) (k w : Word) :
    roundT1 (roundInverse q k w) k w = q[0] - roundT2 (roundInverse q k w) :=
  (roundT1_eq_iff (roundInverse q k w) k w _).2 rfl

theorem roundRegs_roundInverse (q : Words8) (k w : Word) : roundRegs (roundInverse q k w) k w = q := by
  have ha : add32 (roundT1 (roundInverse q k w) k w) (roundT2 (roundInverse q k w)) = q[0] := by
    rw [roundT1_roundInverse, add32, sub_add_cancel]
  have he : add32 (q[4] - (q[0] - roundT2 (roundInverse q k w))) (roundT1 (roundInverse q k w) k w) = q[4] := by
    rw [roundT1_roundInverse, add32, sub_add_cancel]
  calc roundRegs (roundInverse q k w) k w
    _ = #v[add32 (roundT1 (roundInverse q k w) k w) (roundT2 (roundInverse q k w)), q[1], q[2], q[3],
          add32 (q[4] - (q[0] - roundT2 (roundInverse q k w))) (roundT1 (roundInverse q k w) k w),
          q[5], q[6], q[7]] := rfl
    _ = q := by rw [ha, he, words8_eta]

/-- Settles O33: the subtractions of `roundInverse` undo the additions of `roundRegs`, and the other way round. -/
theorem roundIsInvertible : Obligations.RoundIsInvertible := fun q k w =>
  ⟨roundInverse_roundRegs q k w, roundRegs_roundInverse q k w⟩

/-! ## The 65 steps (42 R143) -/

/-- Settles O39: `U_WINIT` and the 64 rounds are a run while no reset comes. -/
theorem roundStepsComputeRounds : Obligations.RoundStepsComputeRounds := fun s h hr =>
  (microSteps_rounds h).run_eq (ports := s.inputs) hr

end Sys2Proof.Machine
end

section
/-! PROOFS. The hash-state accumulator (43 R152 to R154): `U_FEED`, the functions `Compress` and `Digest`, and the 131
steps of an accepted block (44 R168). -/

namespace Sys2Proof.Machine

/-! ## The feed-forward (43 R152) -/

/-- 43 R152, R153: each Word is a sum modulo 2^32 of its own. -/
theorem feedForward_toNat (h r : Words8) (j : Fin 8) :
    ((feedForward h r)[j]).toNat = ((h[j]).toNat + (r[j]).toNat) % 2 ^ 32 := by
  rw [Fin.getElem_fin, feedForward_getElem h r j.val j.isLt, add32_toNat]
  rfl

theorem sessionAfterFeed_of_last {s : State} (h : s.lastQ = true) : sessionAfterFeed s = .done := if_pos h

theorem sessionAfterFeed_of_not_last {s : State} (h : s.lastQ = false) : sessionAfterFeed s = s.hs := by
  simp [sessionAfterFeed, h]

/-- Settles O32: the state is the one of `exec_uFeed`. -/
theorem feedAddsWordByWord : Obligations.FeedAddsWordByWord := fun s =>
  ⟨_, exec_uFeed s, feedForward_toNat s.H s.r, sessionAfterFeed_of_last, sessionAfterFeed_of_not_last, rfl, rfl, rfl,
    fun h => (State.digestValid_iff _).2 (sessionAfterFeed_of_last h), rfl⟩

/-! ## The functions (43 R153, R154) -/

theorem digestOf_append_singleton (bs : List Block) (b : Block) :
    digestOf (bs ++ [b]) = compress (digestOf bs) b :=
  List.foldl_concat compress initialHash b bs

/-- Settles O36: `Compress` is a feed-forward, `Digest` a fold from the left. -/
theorem digestFoldsCompress : Obligations.DigestFoldsCompress :=
  ⟨fun h b => feedForward_toNat h (rounds h (expand b)), rfl, digestOf_append_singleton⟩

/-! ## While a block is in progress -/

/-- What the host can see, and the hash state, are in `m` as they were in `s`. -/
structure Held (s m : State) : Prop where
  hash : m.H = s.H
  hs : m.hs = s.hs
  err : m.err = s.err
  errCode : m.errCode = s.errCode

theorem Held.trans {s m s' : State} (h : Held s m) (h' : Held m s') : Held s s' where
  hash := h'.hash.trans h.hash
  hs := h'.hs.trans h.hs
  err := h'.err.trans h.err
  errCode := h'.errCode.trans h.errCode

/-- Only `U_FEED` writes `H` or `hs`, and it leaves the core in `IDLE`. -/
theorem StepCase.held_of_busy {s s' : State} (hc : StepCase s s') (hr : s.portsNow.rst = false)
    (hp : s.seq.phase ≠ .idle) (hp' : s'.seq.phase ≠ .idle) : Held s s' := by
  cases hc with
  | reset h => simp [hr] at h
  | wait _ h => exact absurd h hp
  | nop h => exact absurd h.idle hp
  | init h => exact absurd h.idle hp
  | block _ h => exact absurd h.idle hp
  | feed => exact absurd rfl hp'
  | _ => constructor <;> simp

theorem MicroStep.held_of_busy {s s' : State} (h : MicroStep s s') (hp : s'.seq.phase ≠ .idle) : Held s s' :=
  have hc : StepCase { s with inputs := [] } { s' with inputs := [] } := step_cases (h.2 [] rfl)
  { hc.held_of_busy rfl h.1 hp with }

theorem MicroSteps.held_of_busy {n : Nat} {s s' : State} (h : MicroSteps n s s') (hp : s'.seq.phase ≠ .idle) :
    Held s s' := by
  induction h with
  | zero _ => exact ⟨rfl, rfl, rfl, rfl⟩
  | snoc _ hs ih => exact (ih hs.1).trans (hs.held_of_busy hp)

/-- Before the last of `n` micro-operations there is a busy state after each number of them. -/
theorem MicroSteps.exists_busy {n k : Nat} {s s' : State} (h : MicroSteps n s s') (hk : k < n) :
    ∃ m, MicroSteps k s m ∧ m.seq.phase ≠ .idle := by
  induction h with
  | zero _ => omega
  | @snoc n _ m _ h hs ih =>
    obtain hlt | rfl := Nat.lt_succ_iff_lt_or_eq.1 hk
    · exact ih hlt
    · exact ⟨m, h, hs.1⟩

/-! ## The whole block (44 R168) -/

/-- The state after the transfer of a block that is accepted (44 R163, R164). -/
def State.started (s : State) (last : Bool) : State :=
  (s.afterPorts.latchBlock s.portsNow.block last).goto .load 0

@[simp] theorem State.started_H (s : State) (last : Bool) : (s.started last).H = s.H := by simp [State.started]
@[simp] theorem State.started_BLK (s : State) (last : Bool) :
    (s.started last).BLK = blockWords s.portsNow.block := by simp [State.started]
@[simp] theorem State.started_hs (s : State) (last : Bool) : (s.started last).hs = s.hs := by simp [State.started]
@[simp] theorem State.started_seq (s : State) (last : Bool) : (s.started last).seq = ⟨.load, 0⟩ := by
  simp [State.started]
@[simp] theorem State.started_lastQ (s : State) (last : Bool) : (s.started last).lastQ = last := by
  simp [State.started]
@[simp] theorem State.started_err (s : State) (last : Bool) : (s.started last).err = s.err := by
  simp [State.started]
@[simp] theorem State.started_errCode (s : State) (last : Bool) : (s.started last).errCode = s.errCode := by
  simp [State.started]
@[simp] theorem State.started_inputs (s : State) (last : Bool) : (s.started last).inputs = s.inputs.tail := by
  simp [State.started]
@[simp] theorem State.started_draws (s : State) (last : Bool) : (s.started last).draws = s.draws := by
  simp [State.started]

theorem State.held_started (s : State) (last : Bool) : Held s (s.started last) := by constructor <;> simp

theorem Transfer.step_started {s : State} {last : Bool} (ht : Transfer s (blockCode last)) (ha : s.hs = .active) :
    step s = .next (s.started last) :=
  ht.step_eq.trans (exec_blockCode_active (s := s.afterPorts) ha last s.portsNow.block)

/-- The transfer of a block and the micro-operations after it are a run while no reset comes. -/
theorem Transfer.run_started {s m : State} {last : Bool} {n : Nat} (ht : Transfer s (blockCode last))
    (ha : s.hs = .active) (hr : NoReset (n + 1) s) (hm : MicroSteps n (s.started last) m) :
    run (n + 1) s = .next { m with inputs := s.inputs.drop (n + 1) } := by
  have hr' : NoReset n (s.started last) := (Nat.add_comm n 1 ▸ hr).later (by simp)
  rw [run_succ (ht.step_started ha), ← List.drop_tail]
  exact hm.run_eq (ports := s.inputs.tail) hr'

@[simp] theorem State.folded_lastQ (s : State) : s.folded.lastQ = false := rfl
@[simp] theorem State.folded_draws (s : State) : s.folded.draws = s.draws := rfl

theorem MicroSteps.started_folded (s : State) (last : Bool) :
    MicroSteps Config.uopsPerBlock (s.started last) (s.started last).folded :=
  microSteps_block (s.started_seq last)

theorem sessionAfterFeed_started {s : State} (ha : s.hs = .active) (last : Bool) :
    sessionAfterFeed (s.started last) = if last then .done else .active := by
  simp [sessionAfterFeed, ha]

/-- A state between the transfer and the last micro-operation is busy, and holds what the host sees. -/
theorem Transfer.run_busy {s : State} {last : Bool} (ht : Transfer s (blockCode last)) (ha : s.hs = .active)
    (hr : NoReset (Config.uopsPerBlock + 1) s) {n : Nat} (h0 : 0 < n) (hn : n ≤ Config.uopsPerBlock) :
    ∃ m, run n s = .next m ∧ m.seq.phase ≠ .idle ∧ Held s m := by
  obtain ⟨k, rfl⟩ := Nat.exists_eq_add_one_of_ne_zero h0.ne'
  obtain ⟨m, hm, hbusy⟩ := (MicroSteps.started_folded s last).exists_busy hn
  have hheld := (s.held_started last).trans (hm.held_of_busy hbusy)
  exact ⟨_, ht.run_started ha (hr.mono (Nat.le_succ_of_le hn)) hm, hbusy, { hheld with }⟩

/-- Settles O41: the transfer and the 130 micro-operations fold the block in, and in between nothing that the host
sees has changed. -/
theorem wholeBlockCompresses : Obligations.WholeBlockCompresses := by
  intro s last ha hr ht
  refine ⟨⟨_, Transfer.run_started ht ha hr (MicroSteps.started_folded s last), ?_⟩, fun n h0 hn => ?_⟩
  · simp [sessionAfterFeed_started ha, Config.uopsPerBlock]
  · obtain ⟨m, hrun, hbusy, hm⟩ := Transfer.run_busy ht ha hr h0 hn
    have hactive : m.hs ≠ .done := by simp [hm.hs, ha]
    exact ⟨m, hrun, decide_eq_false hbusy, decide_eq_false hactive, hm.err, congrArg ErrCode.code hm.errCode, hm.hash⟩

end Sys2Proof.Machine
end

section
/-! PROOFS. The commands and the sequencer (44 R160, R162 to R164, R167, R169): what a transfer leaves, and the places
of the sequencer's path, of which every legal sequencer word is one. -/

namespace Sys2Proof.Machine

variable {s : State}

/-! ## The commands -/

/-- Settles O26: the idle edge is the waiting case of a step. -/
theorem idleWaitsWithoutChange : Obligations.IdleWaitsWithoutChange := fun _ hp hr hv => step_wait hr hp hv

/-- Settles O22: the state is the one of `exec_init`, and the same writes once more leave it as it is. -/
theorem initOpensAComputation : Obligations.InitOpensAComputation := fun s =>
  ⟨_, exec_init s, rfl, rfl, rfl, rfl, rfl, rfl, exec_init _⟩

/-- 44 R163, R164: one statement for the two block commands, which differ in the `last_q` they leave. -/
theorem exec_blockCode_latches (ha : s.hs = .active) (last : Bool) (b : BitVec 512) :
    ∃ s', exec (decodeCmd (blockCode last) b) s = .next s' ∧ (∀ i : Fin 16, s'.BLK[i] = blockWord b i) ∧
      s'.lastQ = last ∧ s'.seq = ⟨.load, 0⟩ ∧ s'.outputs.cmdReady = false ∧
      s' = { s with BLK := s'.BLK, lastQ := s'.lastQ, seq := s'.seq } :=
  ⟨_, exec_blockCode_active ha last b, blockWords_getElem b, rfl, rfl, rfl, rfl⟩

/-- Settles O23: `BLOCK` and `BLOCK_LAST` are the two commands of `exec_blockCode_latches`. -/
theorem blockIsAcceptedWhenActive : Obligations.BlockIsAcceptedWhenActive := fun _ b ha =>
  ⟨exec_blockCode_latches ha false b, exec_blockCode_latches ha true b⟩

/-! ## The places of the path (44 R167) -/

/-- The sequencer after `n` of the 130 micro-operations of a block: the expander up to `(WINIT, 0)`, the rounds up to
`(FEED, 0)`, and `(IDLE, 0)`. -/
def pathSeq (n : Nat) : Seq :=
  if n ≤ 64 then expanderSeq n else if n ≤ 129 then roundSeq (n - 65) else ⟨.idle, 0⟩

theorem pathSeq_expander {n : Nat} (h : n ≤ 64) : pathSeq n = expanderSeq n := if_pos h

theorem pathSeq_rounds {k : Nat} (h : k ≤ 64) : pathSeq (65 + k) = roundSeq k := by
  simp [pathSeq, show ¬ 65 + k ≤ 64 by omega, show 65 + k ≤ 129 by omega]

theorem pathSeq_load {n : Nat} (h : n < 16) : pathSeq n = ⟨.load, ⟨n, by omega⟩⟩ :=
  (pathSeq_expander (by omega)).trans (expanderSeq_load h)

theorem pathSeq_expand {n : Nat} (h : 16 ≤ n) (hn : n < 64) : pathSeq n = ⟨.expand, ⟨n, hn⟩⟩ :=
  (pathSeq_expander (by omega)).trans (expanderSeq_expand h hn)

theorem pathSeq_round {k : Nat} (h : k < 64) : pathSeq (65 + k) = ⟨.round, ⟨k, h⟩⟩ :=
  (pathSeq_rounds (by omega)).trans (roundSeq_of_lt h)

/-- 10 R35 (b), 44 R167: a sequencer word with a legal index is a place of the path. -/
theorem exists_pathSeq {q : Seq} (h : q.legal = true) : ∃ n ≤ Config.uopsPerBlock, q = pathSeq n := by
  obtain ⟨p, t⟩ := q
  have hzero (hz : legalZero t = true) : t = 0 := Fin.ext (of_decide_eq_true hz)
  simp only [Config.uopsPerBlock]
  cases p with
  | idle => exact ⟨130, le_rfl, congrArg (Seq.mk .idle) (hzero h)⟩
  | load => exact ⟨t.val, by omega, (pathSeq_load (Nat.lt_succ_of_le (of_decide_eq_true h))).symm⟩
  | expand => exact ⟨t.val, by omega, (pathSeq_expand (of_decide_eq_true h) t.isLt).symm⟩
  | winit => exact ⟨64, by omega, congrArg (Seq.mk .winit) (hzero h)⟩
  | round => exact ⟨65 + t.val, by omega, (pathSeq_round t.isLt).symm⟩
  | feed => exact ⟨129, by omega, congrArg (Seq.mk .feed) (hzero h)⟩

/-! ## The steps along the path (44 R167, R169) -/

theorem microStep_path {n : Nat} (h : s.seq = pathSeq n) (hn : n < Config.uopsPerBlock) :
    ∃ s', MicroStep s s' ∧ s'.seq = pathSeq (n + 1) := by
  simp only [Config.uopsPerBlock] at hn
  obtain hload | ⟨h16, h64⟩ | rfl | ⟨h65, h129⟩ | rfl :
      n < 16 ∨ (16 ≤ n ∧ n < 64) ∨ n = 64 ∨ (65 ≤ n ∧ n < 129) ∨ n = 129 := by omega
  · refine ⟨_, microStep_load (h.trans (pathSeq_load hload)) (Nat.le_of_lt_succ hload), ?_⟩
    rw [State.advance_seq, pathSeq_expander (by omega), expanderSeq_succ_load hload]
  · refine ⟨_, microStep_expand (h.trans (pathSeq_expand h16 h64)) h16, ?_⟩
    rw [State.advance_seq, pathSeq_expander (by omega), expanderSeq_succ_expand h16 h64]
  · exact ⟨_, microStep_winit h, rfl⟩
  · obtain ⟨k, rfl⟩ := Nat.exists_eq_add_of_le h65
    have hk : k < 64 := by omega
    refine ⟨_, microStep_round (h.trans (pathSeq_round hk)), ?_⟩
    rw [State.advance_seq, Nat.add_assoc, pathSeq_rounds (by omega), roundSeq_succ hk]
  · exact ⟨_, microStep_feed h, rfl⟩

theorem microSteps_path {n k : Nat} (h : s.seq = pathSeq n) (hk : n + k ≤ Config.uopsPerBlock) :
    ∃ s', MicroSteps k s s' ∧ s'.seq = pathSeq (n + k) := by
  induction k with
  | zero => exact ⟨s, .zero s, h⟩
  | succ k ih =>
    obtain ⟨m, hm, hq⟩ := ih (by omega)
    obtain ⟨s', hs, hq'⟩ := microStep_path hq (by omega)
    exact ⟨s', hm.snoc hs, hq'⟩

/-- From the place `n` of the path a run of `k` steps without a reset goes to the place `n + k`. -/
theorem run_path {n k : Nat} (h : s.seq = pathSeq n) (hk : n + k ≤ Config.uopsPerBlock) (hr : NoReset k s) :
    ∃ s', run k s = .next s' ∧ s'.seq = pathSeq (n + k) := by
  obtain ⟨s', hs, hq⟩ := microSteps_path h hk
  exact ⟨_, hs.run_eq (ports := s.inputs) hr, hq⟩

/-- Settles O40: `(LOAD, 0)` is the place 0 of the path, and each clause is what the path says of its part. -/
theorem sequencerFollowsTheFixedPath : Obligations.SequencerFollowsTheFixedPath := by
  intro s n h hr hn
  obtain ⟨s', hrun, hq⟩ := run_path (n := 0) h (by omega) hr
  rw [Nat.zero_add] at hq
  refine ⟨s', hrun, fun hload => ?_, fun h16 h64 => ?_, ?_, fun h65 h129 => ?_, ?_, ?_⟩
  · simp [hq, pathSeq_load hload]
  · simp [hq, pathSeq_expand h16 h64]
  · rintro rfl; exact hq
  · obtain ⟨k, rfl⟩ := Nat.exists_eq_add_of_le h65
    simp [hq, pathSeq_round (show k < 64 by omega)]
  · rintro rfl; exact hq
  · rintro rfl; exact hq

/-- Settles O42: the state is at some place `n` of the path, and the rest of the path ends in `(IDLE, 0)`. -/
theorem idleIsReachedWithoutTheHost : Obligations.IdleIsReachedWithoutTheHost := by
  intro s hinv hr
  obtain ⟨-, hlegal, -⟩ := hinv
  obtain ⟨n, hn, hq⟩ := exists_pathSeq hlegal
  have hk : n + (Config.uopsPerBlock - n) = Config.uopsPerBlock := Nat.add_sub_of_le hn
  obtain ⟨s', hrun, hend⟩ := run_path hq hk.le (hr.mono (Nat.sub_le _ _))
  rw [hk] at hend
  exact ⟨_, s', Nat.sub_le _ _, hrun, s'.cmdReady_iff.2 (congrArg Seq.phase hend)⟩

end Sys2Proof.Machine
end

section
/-! PROOFS. The padded string and the blocks cut from it (45 R183, R184). -/

namespace Sys2Proof.Machine

/-! ## The padded string (45 R183) -/

theorem pad_shape (m : List Byte) :
    pad m = m ++ [0x80#8] ++ List.replicate (zeroBytes m.length) 0#8 ++ lengthField m.length := by
  simp [pad]

theorem zeroBytes_reaches_56 (n : Nat) : (n + 1 + zeroBytes n) % 64 = 56 := by
  rw [zeroBytes]
  omega

theorem zeroBytes_least {n z : Nat} (h : (n + 1 + z) % 64 = 56) : zeroBytes n ≤ z := by
  rw [zeroBytes]
  omega

/-! ## The blocks (45 R184) -/

theorem length_pad (m : List Byte) : (pad m).length = 64 * blockCount m.length := by
  rw [pad_eq, List.length_append, length_padBeforeLength, length_lengthField, blockCount]
  omega

theorem blockCount_eq_ceil (n : Nat) : blockCount n = (8 * n + 1 + 64 + 511) / 512 := by
  rw [blockCount]
  omega

theorem length_messageBlocks (m : List Byte) : (messageBlocks m).length = blockCount m.length := by
  simp [messageBlocks]

theorem messageBlocks_getElem? {m : List Byte} {k : Nat} (hk : k < blockCount m.length) :
    (messageBlocks m)[k]? = some (messageBlock m k) := by
  simp [messageBlocks, hk]

/-- 45 R184: piece `k` of the padded string, 64 bytes long. -/
def padPiece (m : List Byte) (k : Nat) : List Byte := ((pad m).drop (64 * k)).take 64

theorem messageBlock_eq_blockPort (m : List Byte) (k : Nat) : messageBlock m k = blockPort (padPiece m k) := rfl

/-- The earlier pieces end at byte `64 * k`, and the padded string goes on for a whole block. -/
theorem length_padPiece {m : List Byte} {k : Nat} (hk : k < blockCount m.length) : (padPiece m k).length = 64 := by
  rw [padPiece, List.length_take, List.length_drop, length_pad]
  omega

theorem padPiece_getElem? (m : List Byte) (k : Nat) (j : Fin 64) : (padPiece m k)[j]? = (pad m)[64 * k + j.val]? := by
  rw [padPiece, Fin.getElem?_fin, List.getElem?_take_of_lt j.isLt, List.getElem?_drop]

/-- 20 R65: the port shows the bytes of its piece in message order. -/
theorem pad_getElem?_eq_blockByte {m : List Byte} {k : Nat} (hk : k < blockCount m.length) (j : Fin 64) :
    (pad m)[64 * k + j.val]? = some (blockByte (messageBlock m k) j) := by
  have hlen := length_padPiece hk
  have hj : j.val < (padPiece m k).length := by omega
  calc (pad m)[64 * k + j.val]? = (padPiece m k)[j]? := (padPiece_getElem? m k j).symm
    _ = some (padPiece m k)[j]! := by rw [getElem?_pos _ j hj, getElem!_pos _ j hj]
    _ = some (blockByte (messageBlock m k) j) := by rw [messageBlock_eq_blockPort, blockByte_blockPort hlen j]

/-- Settles O54, clause by clause. -/
theorem paddingFillsWholeBlocks : Obligations.PaddingFillsWholeBlocks := fun m =>
  ⟨⟨lengthField m.length, rfl, pad_shape m⟩, zeroBytes_reaches_56 _, fun _ => zeroBytes_least, length_pad m,
    blockCount_eq_ceil _, length_messageBlocks m,
    fun k hk => ⟨messageBlock m k, messageBlocks_getElem? hk, rfl, pad_getElem?_eq_blockByte hk⟩⟩

end Sys2Proof.Machine
end

section
/-! PROOFS. The order of work of one message with `NOP`s inserted anywhere (45 R187): how far each of its actions
brings the host, and the whole work. -/

namespace Sys2Proof.Machine

/-! ## The work in a list of actions -/

/-- The actions of the list that are no `NOP`, as `hashScript` writes them. -/
def HostAction.work (todo : List HostAction) : List HostAction :=
  (todo.filter fun a => !a.isNop).map HostAction.dropUnread

theorem HostAction.doWork_iff {m : List Byte} {todo : List HostAction} :
    HostAction.doWork m todo = true ↔ HostAction.work todo = messageScript m :=
  beq_iff_eq

/-- Some `NOP`s stand before the first action of the work. -/
theorem HostAction.work_eq_cons {todo script : List HostAction} {a : HostAction}
    (h : HostAction.work todo = a :: script) :
    ∃ nops a' rest, todo = nops ++ a' :: rest ∧ (∀ x ∈ nops, x.isNop = true) ∧ a'.dropUnread = a ∧
      HostAction.work rest = script := by
  obtain ⟨a', as, hfilter, ha, hscript⟩ := List.map_eq_cons_iff.1 h
  obtain ⟨nops, rest, htodo, hnops, -, hrest⟩ := List.filter_eq_cons_iff.1 hfilter
  exact ⟨nops, a', rest, htodo, by simpa using hnops, ha, by rw [HostAction.work, hrest, hscript]⟩

theorem HostAction.isNop_of_work_eq_nil {todo : List HostAction} (h : HostAction.work todo = []) :
    ∀ x ∈ todo, x.isNop = true := by
  simpa using List.filter_eq_nil_iff.1 (List.map_eq_nil_iff.1 h)

theorem HostAction.eq_command_of_isNop {a : HostAction} (h : a.isNop = true) : ∃ b, a = .command 0b00#2 b := by
  cases a with
  | command code b => exact ⟨b, by rw [beq_iff_eq.1 (show (code == 0b00#2) = true from h)]⟩
  | rdDigest => cases h
  | rdErr => cases h
  | reset => cases h

theorem HostAction.dropUnread_eq_command {a : HostAction} {code : BitVec 2} {b : BitVec 512}
    (h : a.dropUnread = .command code b) :
    ∃ b', a = .command code b' ∧ (if cmdBlk code then b' else 0) = b := by
  cases a with
  | command c b' =>
    obtain ⟨rfl, hb⟩ := HostAction.command.inj h
    exact ⟨b', rfl, hb⟩
  | rdDigest => cases h
  | rdErr => cases h
  | reset => cases h

/-- 30 R93: the block of a block command is read, so it is the block of the work. -/
theorem HostAction.dropUnread_eq_block {a : HostAction} {last : Bool} {b : BitVec 512}
    (h : a.dropUnread = .command (blockCode last) b) : a = .command (blockCode last) b := by
  obtain ⟨b', rfl, hb⟩ := HostAction.dropUnread_eq_command h
  have hread : cmdBlk (blockCode last) = true := by cases last <;> rfl
  rw [← hb, if_pos hread]

theorem HostAction.dropUnread_eq_rdDigest {a : HostAction} (h : a.dropUnread = .rdDigest) : a = .rdDigest := by
  cases a with
  | rdDigest => rfl
  | _ => cases h

theorem HostAction.dropUnread_eq_rdErr {a : HostAction} (h : a.dropUnread = .rdErr) : a = .rdErr := by
  cases a with
  | rdErr => rfl
  | _ => cases h

theorem HostAction.waitsForIdle_dropUnread (a : HostAction) : a.dropUnread.waitsForIdle = a.waitsForIdle := by
  cases a <;> rfl

/-- The first action of the list is held back until the core is in `IDLE`. -/
def HostAction.FirstWaits (todo : List HostAction) : Prop :=
  ∃ a rest, todo = a :: rest ∧ a.waitsForIdle = true

theorem HostAction.FirstWaits.blocks (bs : List (BitVec 512)) {next : List HostAction}
    (h : HostAction.FirstWaits next) :
    HostAction.FirstWaits (bs.map (.command (blockCode false)) ++ next) := by
  cases bs with
  | nil => exact h
  | cons b bs => exact ⟨_, _, rfl, rfl⟩

/-- A `NOP` is held back as well, so the inserted ones do not matter. -/
theorem HostAction.FirstWaits.of_work {todo : List HostAction} (h : HostAction.FirstWaits (HostAction.work todo)) :
    HostAction.FirstWaits todo := by
  obtain ⟨a, script, hwork, ha⟩ := h
  obtain ⟨nops, a', rest, rfl, hnops, rfl, -⟩ := HostAction.work_eq_cons hwork
  cases nops with
  | nil => exact ⟨a', rest, rfl, a'.waitsForIdle_dropUnread ▸ ha⟩
  | cons x xs =>
    obtain ⟨b, rfl⟩ := HostAction.eq_command_of_isNop (hnops x List.mem_cons_self)
    exact ⟨_, _, rfl, rfl⟩

/-! ## How far the host has come -/

/-- The host at `x` comes to `y` with one step for each action done on the way and `extra` steps more; `c` steps
are left for later waits. -/
def HostRun.Leads (extra : Nat) (x y : HostRun) : Prop :=
  ∀ c, HostRun.hostSteps (x.todo.length + (extra + c)) x = HostRun.hostSteps (y.todo.length + c) y

theorem HostRun.Leads.of_hostSteps {n extra : Nat} {x y : HostRun} (h : HostRun.hostSteps n x = .next y)
    (hn : x.todo.length + extra = n + y.todo.length) : HostRun.Leads extra x y := fun c => by
  rw [← Nat.add_assoc, hn, Nat.add_assoc, HostRun.hostSteps_add h]

theorem HostRun.Leads.of_hostStep {x y : HostRun} (h : x.hostStep = .next y)
    (hn : x.todo.length = y.todo.length + 1) : HostRun.Leads 0 x y :=
  .of_hostSteps (n := 1) (HostRun.hostSteps_succ h) (by omega)

theorem HostRun.Leads.trans {e e' : Nat} {x y z : HostRun} (h : HostRun.Leads e x y) (h' : HostRun.Leads e' y z) :
    HostRun.Leads (e + e') x z := fun c => by
  rw [Nat.add_assoc, h, h']

/-- The step count of a host that has come to the end of its list. -/
theorem HostRun.Leads.hostSteps_eq {extra : Nat} {x : HostRun} {t : State} {reads : List HostRead}
    (h : HostRun.Leads extra x ⟨t, [], reads⟩) :
    HostRun.hostSteps (x.todo.length + extra) x = .next ⟨t, [], reads⟩ :=
  h 0

/-! ## One action of the work, with the `NOP`s before it -/

theorem Idling.with_inputs {s : State} {h : Words8} {v : Session} (hi : Idling s h v) (ports : List PortIn) :
    Idling { s with inputs := ports } h v :=
  { hi with }

variable {s : State} {todo script : List HostAction} {reads : List HostRead}

/-- 44 R161: a transferred `NOP` uses up the port samples and changes nothing else. -/
theorem HostRun.hostStep_nop (hq : s.seq = ⟨.idle, 0⟩) (b : BitVec 512) (rest : List HostAction)
    (reads : List HostRead) :
    HostRun.hostStep ⟨s, .command 0b00#2 b :: rest, reads⟩ = .next ⟨{ s with inputs := [] }, rest, reads⟩ :=
  HostRun.hostStep_transfer (by rw [hq]) ((decodeCmd_nop b).symm ▸ exec_nop _) rest reads

theorem HostRun.leads_nops (hq : s.seq = ⟨.idle, 0⟩) {nops : List HostAction}
    (hn : ∀ x ∈ nops, x.isNop = true) (rest : List HostAction) (reads : List HostRead) :
    ∃ ports, HostRun.Leads 0 ⟨s, nops ++ rest, reads⟩ ⟨{ s with inputs := ports }, rest, reads⟩ := by
  induction nops generalizing s with
  | nil => exact ⟨s.inputs, .of_hostSteps (n := 0) rfl (by simp)⟩
  | cons x xs ih =>
    obtain ⟨b, rfl⟩ := HostAction.eq_command_of_isNop (hn x List.mem_cons_self)
    obtain ⟨ports, hrun⟩ := ih (s := { s with inputs := [] }) hq fun y hy => hn y (List.mem_cons_of_mem _ hy)
    exact ⟨ports, (HostRun.Leads.of_hostStep (HostRun.hostStep_nop hq b _ _) rfl).trans hrun⟩

/-- The `NOP`s before the first action of the work leave that action to do. -/
theorem HostRun.leads_first_action {a : HostAction} (hq : s.seq = ⟨.idle, 0⟩)
    (hw : HostAction.work todo = a :: script) (reads : List HostRead) :
    ∃ ports a' rest, a'.dropUnread = a ∧ HostAction.work rest = script ∧
      HostRun.Leads 0 ⟨s, todo, reads⟩ ⟨{ s with inputs := ports }, a' :: rest, reads⟩ := by
  obtain ⟨nops, a', rest, rfl, hnops, ha, hrest⟩ := HostAction.work_eq_cons hw
  obtain ⟨ports, hrun⟩ := HostRun.leads_nops hq hnops (a' :: rest) reads
  exact ⟨ports, a', rest, ha, hrest, hrun⟩

/-- Between two commands the `NOP`s also keep what `Idling` says. -/
theorem Idling.leads_first_action {h : Words8} {v : Session} {a : HostAction} (hi : Idling s h v)
    (hw : HostAction.work todo = a :: script) (reads : List HostRead) :
    ∃ t a' rest, Idling t h v ∧ a'.dropUnread = a ∧ HostAction.work rest = script ∧
      HostRun.Leads 0 ⟨s, todo, reads⟩ ⟨t, a' :: rest, reads⟩ := by
  obtain ⟨ports, a', rest, ha, hrest, hrun⟩ := HostRun.leads_first_action hi.seq hw reads
  exact ⟨_, a', rest, hi.with_inputs ports, ha, hrest, hrun⟩

/-- 45 R187: the `INIT`. -/
theorem HostRun.leads_init (hq : s.seq = ⟨.idle, 0⟩)
    (hw : HostAction.work todo = .command 0b01#2 0 :: script) (reads : List HostRead) :
    ∃ t rest, Idling t initialHash .active ∧ HostAction.work rest = script ∧
      HostRun.Leads 0 ⟨s, todo, reads⟩ ⟨t, rest, reads⟩ := by
  obtain ⟨ports, a, rest, ha, hrest, hrun⟩ := HostRun.leads_first_action hq hw reads
  obtain ⟨b, rfl, -⟩ := HostAction.dropUnread_eq_command ha
  obtain ⟨t, ht, hstep⟩ := HostRun.hostStep_init (s := { s with inputs := ports }) hq b
  exact ⟨t, rest, ht, hrest, hrun.trans (.of_hostStep (hstep rest reads) rfl)⟩

variable {h : Words8}

/-- 45 R187, 44 R168: a block takes its transfer and 130 micro-operations, for which the next action waits. -/
theorem HostRun.leads_block (hi : Idling s h .active) {last : Bool} {b : BitVec 512}
    (hw : HostAction.work todo = .command (blockCode last) b :: script) (hnext : HostAction.FirstWaits script)
    (reads : List HostRead) :
    ∃ t rest, Idling t (compress h (blockWords b)) (if last then .done else .active) ∧
      HostAction.work rest = script ∧ HostRun.Leads Config.uopsPerBlock ⟨s, todo, reads⟩ ⟨t, rest, reads⟩ := by
  obtain ⟨m, a, rest, hm, ha, rfl, hrun⟩ := hi.leads_first_action hw reads
  obtain rfl := HostAction.dropUnread_eq_block ha
  obtain ⟨a', rest', rfl, hwaits⟩ := hnext.of_work
  obtain ⟨t, ht, hsteps⟩ := HostRun.hostSteps_block hm last b hwaits rest' reads
  have hcount : (a' :: rest').length + 1 + Config.uopsPerBlock = 131 + (a' :: rest').length := by
    simp only [Config.uopsPerBlock]
    omega
  exact ⟨t, _, ht, rfl, Nat.zero_add Config.uopsPerBlock ▸ hrun.trans (.of_hostSteps hsteps hcount)⟩

/-- 45 R187: the blocks that are not the last. -/
theorem HostRun.leads_blocks (hi : Idling s h .active) {bs : List (BitVec 512)}
    (hw : HostAction.work todo = bs.map (.command (blockCode false)) ++ script)
    (hnext : HostAction.FirstWaits script) (reads : List HostRead) :
    ∃ t rest, Idling t (foldBlocks h (bs.map blockWords)) .active ∧ HostAction.work rest = script ∧
      HostRun.Leads (Config.uopsPerBlock * bs.length) ⟨s, todo, reads⟩ ⟨t, rest, reads⟩ := by
  induction bs generalizing s h todo with
  | nil => exact ⟨s, todo, hi, hw, .of_hostSteps (n := 0) rfl (by simp)⟩
  | cons b bs ih =>
    obtain ⟨m, rest, hm, hrest, hfirst⟩ := HostRun.leads_block hi hw (hnext.blocks bs) reads
    obtain ⟨t, rest', ht, hrest', hlater⟩ := ih hm hrest
    refine ⟨t, rest', ht, hrest', ?_⟩
    rw [List.length_cons, Nat.mul_succ, Nat.add_comm]
    exact hfirst.trans hlater

/-- 45 R187, 30 R103: the sample of the digest. -/
theorem HostRun.leads_rdDigest (hi : Idling s h .done) (hw : HostAction.work todo = .rdDigest :: script)
    (reads : List HostRead) :
    ∃ t rest, Idling t h .done ∧ HostAction.work rest = script ∧
      HostRun.Leads 0 ⟨s, todo, reads⟩ ⟨t, rest, reads ++ [.digest (digestPort h)]⟩ := by
  obtain ⟨t, a, rest, ht, ha, hrest, hrun⟩ := hi.leads_first_action hw reads
  obtain rfl := HostAction.dropUnread_eq_rdDigest ha
  have hstep := HostRun.hostStep_rdDigest rest reads (by rw [ht.seq]) ht.hs
  rw [ht.hash] at hstep
  exact ⟨t, rest, ht, hrest, hrun.trans (.of_hostStep hstep rfl)⟩

/-- 45 R187, 30 R103: the check of `err`. -/
theorem HostRun.leads_rdErr {v : Session} (hi : Idling s h v) (hw : HostAction.work todo = .rdErr :: script)
    (reads : List HostRead) :
    ∃ t rest, Idling t h v ∧ HostAction.work rest = script ∧
      HostRun.Leads 0 ⟨s, todo, reads⟩ ⟨t, rest, reads ++ [.err false 0#2]⟩ := by
  obtain ⟨t, a, rest, ht, ha, hrest, hrun⟩ := hi.leads_first_action hw reads
  obtain rfl := HostAction.dropUnread_eq_rdErr ha
  have hstep := HostRun.hostStep_rdErr t rest reads
  rw [ht.err, ht.errCode] at hstep
  exact ⟨t, rest, ht, hrest, hrun.trans (.of_hostStep hstep rfl)⟩

/-! ## The whole work -/

theorem messageScript_eq (m : List Byte) : messageScript m = .command 0b01#2 0 ::
    ((earlierBlocks m).map (.command (blockCode false)) ++
      [.command (blockCode true) (lastBlock m), .rdDigest, .rdErr]) := by
  simp [messageScript, hashScript_eq]

/-- Settles O58: the actions of the work one after the other, each with the `NOP`s before it, and the `NOP`s that
follow the last. -/
theorem orderOfWorkReadsTheDigestAndNoError : Obligations.OrderOfWorkReadsTheDigestAndNoError := by
  intro s m todo hq _ hdo
  have hw := (HostAction.doWork_iff.1 hdo).trans (messageScript_eq m)
  obtain ⟨s1, rest1, h1, hw1, hinit⟩ := HostRun.leads_init hq hw []
  obtain ⟨s2, rest2, h2, hw2, hearlier⟩ := HostRun.leads_blocks h1 hw1 ⟨_, _, rfl, rfl⟩ []
  obtain ⟨s3, rest3, h3, hw3, hlast⟩ := HostRun.leads_block h2 hw2 ⟨_, _, rfl, rfl⟩ []
  rw [← computeDigest_eq] at h3
  obtain ⟨s4, rest4, h4, hw4, hdigest⟩ := HostRun.leads_rdDigest h3 hw3 []
  obtain ⟨s5, rest5, h5, hw5, herr⟩ := HostRun.leads_rdErr h4 hw4 _
  obtain ⟨ports, hnops⟩ := HostRun.leads_nops h5.seq (HostAction.isNop_of_work_eq_nil hw5) [] _
  rw [List.append_nil] at hnops
  have hall := ((((hinit.trans hearlier).trans hlast).trans hdigest).trans herr).trans hnops
  have hextra : 0 + Config.uopsPerBlock * (earlierBlocks m).length + Config.uopsPerBlock + 0 + 0 + 0 =
      Config.uopsPerBlock * blockCount m.length := by
    simp only [← length_earlierBlocks, Nat.mul_succ, Nat.zero_add, Nat.add_zero]
  rw [hextra] at hall
  exact ⟨_, hall.hostSteps_eq, h5.hs, h5.hash, h5.err, h5.seq⟩

end Sys2Proof.Machine
end

section
/-! PROOFS. The exception (60 R200, R201, R204): which cause a refused block records, and that nothing else raises
`err`. -/

namespace Sys2Proof.Machine

variable {s : State}

/-- 60 R201: the session state of a cause has both block commands raise it; the converse of `acceptBlock_refused`. -/
theorem acceptBlock_of_cause {c : ErrCode} (h : SeqErrorCause s.hs c) (last : Bool) (b : BitVec 512) :
    acceptBlock last b s = s.raiseSeqError c := by
  obtain ⟨hs, rfl⟩ | ⟨hs, rfl⟩ := h
  · exact acceptBlock_empty hs last b
  · exact acceptBlock_done hs last b

/-- Settles O24: both block commands are `raiseSeqError`, and the outputs read nothing that it changes. -/
theorem seqErrorRecordsTheFirstCause : Obligations.SeqErrorRecordsTheFirstCause := by
  intro s b code hc
  have hframe := s.raiseSeqError_frame code
  refine ⟨s.raiseSeqError code, ?_, ?_, s.raiseSeqError_err code, fun he => ?_, fun he => ?_, hframe,
    congrArg (·.outputs.cmdReady) hframe, congrArg (·.outputs.digestValid) hframe, ?_, ?_⟩
  · rw [exec_block, acceptBlock_of_cause hc]
  · rw [exec_blockLast, acceptBlock_of_cause hc]
  · rw [State.raiseSeqError_of_not_err he]
  · rw [State.raiseSeqError_of_err he]
  · rintro rfl; rfl
  · rintro rfl; rfl

/-- 60 R200, R201: a block that takes `err` from 0 to 1 was not accepted, and `err_code` holds its cause. -/
theorem cause_of_acceptBlock_raises (he : s.err = false) {last : Bool} {b : BitVec 512}
    (he' : (acceptBlock last b s).err = true) : SeqErrorCause s.hs (acceptBlock last b s).errCode := by
  by_cases ha : s.hs = .active
  · simp [acceptBlock_active ha, he] at he'
  · obtain ⟨c, hc, heq⟩ := acceptBlock_refused ha last b
    rw [heq, State.raiseSeqError_of_not_err he]
    exact hc

/-- Settles O52: a reset and an `INIT` clear `err`, and of the other cases only a block's transfer can set it. -/
theorem onlyARefusedBlockRaisesTheError : Obligations.OnlyARefusedBlockRaisesTheError := by
  intro s s' hs he he'
  cases step_cases hs with
  | block last ht => exact ⟨ht.block_or_blockLast, cause_of_acceptBlock_raises (s := s.afterPorts) he he'⟩
  | reset | init => exact nomatch he'
  | _ => simp [he] at he'

end Sys2Proof.Machine
end

section
/-! PROOFS. A reset in effect during a run (60 R208 (a); 70 R230, R231). -/

namespace Sys2Proof.Machine

/-- 70 R231, 10 R32: whatever the reset leaves in the data state, no output port shows it. -/
@[simp] theorem State.resetEdge_outputs (s : State) : s.resetEdge.outputs = ⟨true, false, none, false, 0#2⟩ := rfl

/-- Settles O43: in every phase the step is `resetEdge`, whose fields and outputs are the reset values. -/
theorem resetWinsOverEverything : Obligations.ResetWinsOverEverything := fun s hr =>
  ⟨s.afterPorts.resetEdge, step_reset hr, by simp⟩

end Sys2Proof.Machine
end
